-- ==== Sys2Proof/Word.lean ====
section
/-! DEFINITION. The words of BOC (R10, R12): bytes, the two value widths, and the finite vocabularies the
rules name (descriptor, order, command format). -/

namespace Sys2Proof

/-- A byte: an 8-bit pattern, neither signed nor unsigned (R10, R48). Characters have the same width (R86). -/
abbrev Byte := BitVec 8

/-- A 32-bit value: an int, a float's raw pattern, a half, or an offset (R10, R79). -/
abbrev Word32 := BitVec 32

/-- A 64-bit value: a long, a double's raw pattern, or the working register (R10, R79). -/
abbrev Word64 := BitVec 64

/-- A bit vector of any length, presented whole, bit 0 least significant: a command (R70) or a response (R80). -/
structure Bits where
  clen : Nat
  bits : BitVec clen
  deriving DecidableEq, Repr

/-- A byte order, GH's two codec instances (R2, R33). -/
inductive Order where
  | little
  | big
  deriving DecidableEq, Repr

/-- The byte-order descriptor `ORD` of a command, one name per value of the 2-bit field, written `.L`, `.B`, `.X2`
and `.X3` in the spec (R87, R94). -/
inductive Desc where
  | l
  | b
  | x2
  | x3
  deriving DecidableEq, Repr

/-- The seven command formats (R72 to R78). -/
inductive Format where
  | z
  | b
  | w32
  | w64
  | p
  | n
  | s
  deriving DecidableEq, Repr

end Sys2Proof
end

