-- ==== Sys2Proof/Config.lean ====
section
/-! DEFINITION. What the spec fixes for the block: the size parameters of R11 and the character codes of R86.
There is no free value: every rule of the spec gives its command one result or one fault (R213). -/

namespace Sys2Proof.Config

/-- `BUF_LEN_MAX`, the longest buffer a host may bind (R11). -/
def bufLenMax : Nat := 2147483647

/-- `STR_MAX`, the longest string the 16-bit `SLEN` field can announce (R11). -/
def strMax : Nat := 65535

/-- `BYTES_MAX`, the longest byte sequence a response carries (R11). -/
def bytesMax : Nat := 8192

/-- The width of the working register, and so the largest count a command of format N accepts (R10, R224) and the
longest string BITSTR2LONG accepts (R223). -/
def registerBits : Nat := 64

/-- The code of the character '0' (R86). -/
def charZero : Byte := 0x30#8

/-- The code of the character '1' (R86). -/
def charOne : Byte := 0x31#8

end Sys2Proof.Config
end

