-- ==== Sys2Proof/Syntax.lean ====
section
/-! DEFINITION. The sixteen commands of BOC, one constructor per row of the opcode table (R90, R213). Every command
carries its descriptor `ORD`, the five order-independent ones too (R88). Operand fields are used as they stand (R79). -/

namespace Sys2Proof

/-- A command, decoded. `d` is `ORD`, `off` is `OFF`, `v32` and `v64` are the value fields, `hi` and `lo` the halves,
`n` the bit count `N`, `cs` the characters `CH[0]` to `CH[SLEN-1]` (R24). -/
inductive Instr where
  | get          (d : Desc)                                -- OPC 0, format Z, R211
  | toInt        (d : Desc) (off : Word32)                 -- OPC 1, format B, R110
  | fromInt      (d : Desc) (off : Word32) (v32 : Word32)  -- OPC 2, format W32, R111
  | toLong       (d : Desc) (off : Word32)                 -- OPC 3, format B, R112
  | toLongP      (d : Desc) (hi : Word32) (lo : Word32)    -- OPC 4, format P, R113
  | fromLong     (d : Desc) (off : Word32) (v64 : Word64)  -- OPC 5, format W64, R114
  | toFloat      (d : Desc) (off : Word32)                 -- OPC 6, format B, R140
  | fromFloat    (d : Desc) (off : Word32) (v32 : Word32)  -- OPC 7, format W32, R141
  | toDouble     (d : Desc) (off : Word32)                 -- OPC 8, format B, R142
  | fromDouble   (d : Desc) (off : Word32) (v64 : Word64)  -- OPC 9, format W64, R143
  | toBitStr     (d : Desc) (n : Byte) (v64 : Word64)      -- OPC 10, format N, R181
  | toLastBitStr (d : Desc) (n : Byte) (v64 : Word64)      -- OPC 11, format N, R182
  | fromBitStr   (d : Desc) (cs : List Byte)               -- OPC 12, format S, R186
  | reverse      (d : Desc) (n : Byte) (v64 : Word64)      -- OPC 13, format N, R160
  | reverseLeft  (d : Desc) (n : Byte) (v64 : Word64)      -- OPC 14, format N, R161
  | bitStr2Long  (d : Desc) (cs : List Byte)               -- OPC 15, format S, R183
  deriving DecidableEq, Repr

end Sys2Proof
end

