-- ==== Sys2Proof/WellFormed.lean ====
section
/-! DEFINITION. Which terms of `Instr` are commands. The types of the operand fields carry every width; the one
bound they do not carry is the length of a string, `SLEN` being a 16-bit field (R78, R11). -/

namespace Sys2Proof

/-- The string operand of the two format-S commands, `none` for the fourteen others. -/
def Instr.chars : Instr → Option (List Byte)
  | .get _ => none
  | .toInt _ _ => none
  | .fromInt _ _ _ => none
  | .toLong _ _ => none
  | .toLongP _ _ _ => none
  | .fromLong _ _ _ => none
  | .toFloat _ _ => none
  | .fromFloat _ _ _ => none
  | .toDouble _ _ => none
  | .fromDouble _ _ _ => none
  | .toBitStr _ _ _ => none
  | .toLastBitStr _ _ _ => none
  | .fromBitStr _ cs => some cs
  | .reverse _ _ _ => none
  | .reverseLeft _ _ _ => none
  | .bitStr2Long _ cs => some cs

/-- A well-formed command: a string operand has at most `STR_MAX` characters (R78). -/
def Instr.wf (i : Instr) : Bool :=
  match i.chars with
  | none => true
  | some cs => decide (cs.length ≤ Config.strMax)

end Sys2Proof
end

