-- ==== Sys2Proof/Decode.lean ====
section
/-! DEFINITION. The command decoder, total on every bit vector of every length (R89), and the encoder, both from the
formats of R71 to R78 and the opcode map of R90. -/

namespace Sys2Proof

/-- The field of width `w` whose lowest bit is bit `lo` of the vector: `CMD[lo+w-1 : lo]` (R14). -/
def Bits.field (c : Bits) (lo w : Nat) : BitVec w := c.bits.extractLsb' lo w

/-- Why a bit vector is not a command (R226). All three are the one fault Illegal. -/
inductive DecodeError where
  /-- Shorter than the 8-bit header (R89). -/
  | shorterThanHeader
  /-- `H[7:6]` is not `00` (R91). -/
  | reservedHeaderBits
  /-- A length that is not the length of the opcode's format (R92). -/
  | wrongLength
  deriving DecidableEq, Repr

/-! ### Header fields -/

/-- The descriptor a 2-bit `ORD` field holds (R87, R94). -/
def Desc.ofBits (b : BitVec 2) : Desc :=
  if b = 0#2 then .l else if b = 1#2 then .b else if b = 2#2 then .x2 else .x3

/-- The 2-bit `ORD` field of a descriptor (R87, R94). -/
def Desc.toBits : Desc → BitVec 2
  | .l => 0#2
  | .b => 1#2
  | .x2 => 2#2
  | .x3 => 3#2

/-- The format of an opcode, the "command format" column of R90. All sixteen values are assigned. -/
def formatOf (opc : BitVec 4) : Format :=
  match opc.toNat with
  | 0 => .z
  | 1 => .b
  | 2 => .w32
  | 3 => .b
  | 4 => .p
  | 5 => .w64
  | 6 => .b
  | 7 => .w32
  | 8 => .b
  | 9 => .w64
  | 10 => .n
  | 11 => .n
  | 12 => .s
  | 13 => .n
  | 14 => .n
  | _ => .s

/-- The length a command of a format must have, `need` in R89. `none` for a format-S vector too short to hold its
`SLEN` field. -/
def Bits.need (c : Bits) : Format → Option Nat
  | .z => some 8
  | .b => some 40
  | .w32 => some 72
  | .w64 => some 104
  | .p => some 72
  | .n => some 80
  | .s => if c.clen < 24 then none else some (24 + 8 * (c.field 8 16).toNat)

/-! ### Decoding -/

/-- The characters of a format-S command, `CH[i] = CMD[31+8i : 24+8i]` for `i < SLEN` (R78). -/
def Bits.chars (c : Bits) : List Byte :=
  (List.range (c.field 8 16).toNat).map fun i => c.field (24 + 8 * i) 8

/-- The command a vector of the right length stands for: the opcode picks the row of R90, the format's fields
(R72 to R78) are taken as they stand. -/
def Bits.instr (c : Bits) : Instr :=
  let d := Desc.ofBits (c.field 4 2)
  match (c.field 0 4).toNat with
  | 0 => .get d
  | 1 => .toInt d (c.field 8 32)
  | 2 => .fromInt d (c.field 8 32) (c.field 40 32)
  | 3 => .toLong d (c.field 8 32)
  | 4 => .toLongP d (c.field 40 32) (c.field 8 32)
  | 5 => .fromLong d (c.field 8 32) (c.field 40 64)
  | 6 => .toFloat d (c.field 8 32)
  | 7 => .fromFloat d (c.field 8 32) (c.field 40 32)
  | 8 => .toDouble d (c.field 8 32)
  | 9 => .fromDouble d (c.field 8 32) (c.field 40 64)
  | 10 => .toBitStr d (c.field 8 8) (c.field 16 64)
  | 11 => .toLastBitStr d (c.field 8 8) (c.field 16 64)
  | 12 => .fromBitStr d c.chars
  | 13 => .reverse d (c.field 8 8) (c.field 16 64)
  | 14 => .reverseLeft d (c.field 8 8) (c.field 16 64)
  | _ => .bitStr2Long d c.chars

/-- The decoder of R89, its tests in the order R89 gives them. -/
def decode (c : Bits) : Except DecodeError Instr :=
  if c.clen < 8 then .error .shorterThanHeader
  else if c.field 6 2 ≠ 0#2 then .error .reservedHeaderBits
  else
    match c.need (formatOf (c.field 0 4)) with
    | none => .error .wrongLength
    | some n => if c.clen = n then .ok c.instr else .error .wrongLength

/-! ### Encoding -/

/-- The descriptor field of a command. -/
def Instr.desc : Instr → Desc
  | .get d => d
  | .toInt d _ => d
  | .fromInt d _ _ => d
  | .toLong d _ => d
  | .toLongP d _ _ => d
  | .fromLong d _ _ => d
  | .toFloat d _ => d
  | .fromFloat d _ _ => d
  | .toDouble d _ => d
  | .fromDouble d _ _ => d
  | .toBitStr d _ _ => d
  | .toLastBitStr d _ _ => d
  | .fromBitStr d _ => d
  | .reverse d _ _ => d
  | .reverseLeft d _ _ => d
  | .bitStr2Long d _ => d

/-- The opcode of a command, the "OPC" column of R90. -/
def Instr.opc : Instr → BitVec 4
  | .get _ => 0#4
  | .toInt _ _ => 1#4
  | .fromInt _ _ _ => 2#4
  | .toLong _ _ => 3#4
  | .toLongP _ _ _ => 4#4
  | .fromLong _ _ _ => 5#4
  | .toFloat _ _ => 6#4
  | .fromFloat _ _ _ => 7#4
  | .toDouble _ _ => 8#4
  | .fromDouble _ _ _ => 9#4
  | .toBitStr _ _ _ => 10#4
  | .toLastBitStr _ _ _ => 11#4
  | .fromBitStr _ _ => 12#4
  | .reverse _ _ _ => 13#4
  | .reverseLeft _ _ _ => 14#4
  | .bitStr2Long _ _ => 15#4

/-- The header byte: `RSV` = 00, `ORD`, `OPC` from the top (R71). -/
def Instr.header (i : Instr) : BitVec 8 := 0#2 ++ i.desc.toBits ++ i.opc

/-- Bytes (or characters) laid out one above the other, element 0 lowest: the tail of formats S, RS and RB
(R78, R83, R84). -/
def packBytes : (bs : List Byte) → BitVec (8 * bs.length)
  | [] => 0#0
  | b :: bs => packBytes bs ++ b

/-- A header, a 16-bit count and as many bytes: the shape of formats S, RS and RB (R78, R83, R84). -/
def countedBytes (h : BitVec 8) (bs : List Byte) : Bits :=
  ⟨8 * bs.length + 16 + 8, packBytes bs ++ BitVec.ofNat 16 bs.length ++ h⟩

/-- The command word of a command, fields from the top down as R72 to R78 place them. -/
def encode (i : Instr) : Bits :=
  match i with
  | .get _ => ⟨8, i.header⟩
  | .toInt _ off => ⟨40, off ++ i.header⟩
  | .fromInt _ off v => ⟨72, v ++ off ++ i.header⟩
  | .toLong _ off => ⟨40, off ++ i.header⟩
  | .toLongP _ hi lo => ⟨72, hi ++ lo ++ i.header⟩
  | .fromLong _ off v => ⟨104, v ++ off ++ i.header⟩
  | .toFloat _ off => ⟨40, off ++ i.header⟩
  | .fromFloat _ off v => ⟨72, v ++ off ++ i.header⟩
  | .toDouble _ off => ⟨40, off ++ i.header⟩
  | .fromDouble _ off v => ⟨104, v ++ off ++ i.header⟩
  | .toBitStr _ n v => ⟨80, v ++ n ++ i.header⟩
  | .toLastBitStr _ n v => ⟨80, v ++ n ++ i.header⟩
  | .fromBitStr _ cs => countedBytes i.header cs
  | .reverse _ n v => ⟨80, v ++ n ++ i.header⟩
  | .reverseLeft _ n v => ⟨80, v ++ n ++ i.header⟩
  | .bitStr2Long _ cs => countedBytes i.header cs

/-! ### Words of the opcode table -/

/-- The command whose low `nbits` bits are `w` and whose other bits are zero, as long as the format of its opcode
asks (log 10). -/
def tableWord (nbits w : Nat) : Bits :=
  let low := w % 2 ^ nbits
  let head : Bits := ⟨24, BitVec.ofNat 24 low⟩
  let len := max nbits ((head.need (formatOf (head.field 0 4))).getD 8)
  ⟨len, BitVec.ofNat len low⟩

/-- The command the decoder reads from a row's word, `none` where it refuses. -/
def decodeTableWord (nbits w : Nat) : Option Instr := (decode (tableWord nbits w)).toOption

end Sys2Proof
end

