-- ==== Sys2Proof/Machine/State.lean ====
section
/-! DEFINITION. The state: the bound buffer, which is the one piece of architectural state (R20, R21), and the host's
side of the interface, the events it is about to issue and the responses it has received (log 1). Plain data. -/

namespace Sys2Proof.Machine

/-- The five faults of BOC (R220). A fault is the status of a response, not a stop of the machine (R228, R229). -/
inductive FaultCode where
  /-- Raised by the eight buffer commands when the span does not lie within the buffer (R222). -/
  | bounds
  /-- Raised by BITSTR2LONG on more than 64 characters (R223). -/
  | invalidInput
  /-- Raised by the four format-N commands on a count above 64 (R224). -/
  | range
  /-- Raised by the two format-S commands on a character other than '0' and '1' (R225). -/
  | badChar
  /-- Raised by the decoder on a bit vector that is not a command (R226). -/
  | illegal
  deriving DecidableEq, Repr

/-- A response (R25, R80): a fault status alone (R85), or status OK with the payload of one of the five formats. -/
inductive Response where
  /-- A fault response (R85). -/
  | fault (f : FaultCode)
  /-- Format RN, no payload (R81). -/
  | done
  /-- Format RES32 (R82). -/
  | res32 (v : Word32)
  /-- Format RES64 (R82). -/
  | res64 (v : Word64)
  /-- Format RS, the characters from `CH[0]` on (R83). -/
  | str (cs : List Byte)
  /-- Format RB, the bytes from `BY[0]` on (R84). -/
  | bytes (bs : List Byte)
  deriving DecidableEq, Repr

/-- What the host may do: issue a command, or between two commands write a byte of the buffer, bind another buffer
(R34), or apply a reset (R260). -/
inductive HostEvent where
  /-- A command, a bit vector presented whole (R70). -/
  | command (c : Bits)
  /-- The host writes `b` to `BUF[k]` (R34). -/
  | write (k : Nat) (b : Byte)
  /-- The host binds the buffer whose bytes these are (R34). -/
  | bind (bs : List Byte)
  /-- A reset (R260). -/
  | reset
  deriving DecidableEq, Repr

/-- The contents of the buffer: (offset, byte) pairs, offsets strictly rising, no byte 0x00 listed; an offset that is
not listed holds 0x00 (log 3). -/
abbrev Memory := List Host.Cell

/-- The state. -/
structure State where
  /-- `LEN`, the length in bytes of the bound buffer (R21). -/
  len : Nat
  /-- The bytes of `BUF` (R21). -/
  mem : Memory
  /-- The host's events to come, oldest first (R23, R27, R34). -/
  pending : List HostEvent
  /-- The responses the host has received, oldest first (R25). -/
  responses : List Response
  deriving DecidableEq, Repr

/-- Why the machine stops. No command of BOC stops it: a fault of BOC is a response (log 6). -/
inductive Fault where
  /-- Raised by the host port when the host writes an offset at or beyond `LEN`, which does not exist (R34, R62).
  Safe: the model stops where the spec gives the host no such act. -/
  | hostWriteOutsideBuffer
  deriving DecidableEq, Repr

/-- Why the model gives a step no meaning. No command is refused. -/
inductive Refusal where
  /-- Raised by an arm of exec whose instruction has no meaning yet. Safe. No arm does. -/
  | notModelled (mnemonic : String)
  /-- Raised by the host port when the host binds a buffer longer than `BUF_LEN_MAX` (R11, R34). Safe: the spec has no
  such buffer. -/
  | bufferTooLong
  deriving DecidableEq, Repr

/-- The state right after reset: the block has nothing to set (R260); the length and contents of the buffer are the
host's and the spec gives them no value, so the model names the empty buffer (log 2); the host has issued nothing and
received nothing (log 4). -/
def State.reset : State where
  len := 0
  mem := []
  pending := []
  responses := []

end Sys2Proof.Machine
end

