-- ==== Sys2Proof/Machine/Flags.lean ====
section
/-! DEFINITION. BOC has no flags, condition codes or status registers (R28, R29). The one outcome of a command besides
its payload is the status byte of its response; this file gives the status byte and the response word (R80 to R85). -/

namespace Sys2Proof.Machine

/-- The code of a fault (R220). -/
def FaultCode.code : FaultCode → BitVec 8
  | .bounds => 0x01#8
  | .invalidInput => 0x02#8
  | .range => 0x03#8
  | .badChar => 0x04#8
  | .illegal => 0x05#8

/-- The status byte `ST` of a response: 0x00 is OK, anything else a fault code (R80, R220). -/
def Response.status : Response → BitVec 8
  | .fault f => f.code
  | .done => 0x00#8
  | .res32 _ => 0x00#8
  | .res64 _ => 0x00#8
  | .str _ => 0x00#8
  | .bytes _ => 0x00#8

/-- The response word `RSP`, status lowest: 8 bits for a fault (R85) and for RN (R81), 40 and 72 bits for RES32 and
RES64 (R82), 24 + 8 × count bits for RS and RB (R83, R84). -/
def Response.word (r : Response) : Bits :=
  match r with
  | .fault _ => ⟨8, r.status⟩
  | .done => ⟨8, r.status⟩
  | .res32 v => ⟨40, v ++ r.status⟩
  | .res64 v => ⟨72, v ++ r.status⟩
  | .str cs => countedBytes r.status cs
  | .bytes bs => countedBytes r.status bs

end Sys2Proof.Machine
end

