-- ==== Sys2Proof/Machine/Operands.lean ====
section
/-! DEFINITION. The operand forms: the order a descriptor selects (R210), the span an offset names (R40, R44, R79), the
byte placement of the two orders (R42, R43), and the bits and characters of the bit-level commands (R160 to R186). -/

namespace Sys2Proof.Machine

/-- The selector of R210: only the big-endian descriptor `01` selects `BIG`. -/
def select : Desc → Order
  | .l => .little
  | .b => .big
  | .x2 => .little
  | .x3 => .little

/-! ### Offsets -/

/-- The bounds check of R44, on unbounded integers (R15): `0 ≤ OFF` and `OFF + w ≤ LEN`, `OFF` read as signed. -/
def inBounds (off : Word32) (w len : Nat) : Bool :=
  decide (0 ≤ off.toInt ∧ off.toInt + (w : Int) ≤ (len : Int))

/-- The lowest address of the span an offset names (R40), the offset itself (R217). -/
def spanStart (off : Word32) : Nat := off.toInt.toNat

/-! ### Byte placement -/

/-- Which byte of a `w`-byte value, byte 0 least significant, stands at place `i` of its span (R42, R43). -/
def lane : Order → Nat → Nat → Nat
  | .little, _, i => i
  | .big, w, i => w - 1 - i

/-- The `w` bytes of a value in the order, lowest address first (R42, R43), by slices of the value alone (R46). -/
def place (o : Order) (w : Nat) {W : Nat} (v : BitVec W) : List Byte :=
  (List.range w).map fun i => v.extractLsb' (8 * lane o w i) 8

/-- The `W`-bit value of a span's bytes in the order (R42, R43): each byte widened with zeros (R48), shifted to its
lane and combined with bitwise or (R46). -/
def combine (W : Nat) (o : Order) (bs : List Byte) : BitVec W :=
  bs.zipIdx.foldl (fun (r : BitVec W) (p : Byte × Nat) => r ||| (p.1.setWidth W <<< (8 * lane o bs.length p.2))) 0#W

/-! ### Bits and characters -/

/-- The `W`-bit vector whose bit `i` is `f i`: the "r[i] = …" loops of the bit-level rules. -/
def ofBits : (W : Nat) → (Nat → Bool) → BitVec W
  | 0, _ => 0#0
  | W + 1, f => BitVec.cons (f W) (ofBits W f)

/-- The character of a bit (R180, R86). -/
def chr (b : Bool) : Byte := if b then Config.charOne else Config.charZero

/-- The bit of a character (R180, R86). -/
def bit (c : Byte) : Bool := c == Config.charOne

/-- Whether a code is one of the two characters (R86, R185). -/
def isBitChar (c : Byte) : Bool := c == Config.charZero || c == Config.charOne

/-- The bit of character `k` of a string, 0 beyond its end. -/
def bitAt (cs : List Byte) (k : Nat) : Bool := bit (cs.getD k Config.charZero)

end Sys2Proof.Machine
end

