-- ==== Sys2Proof/Machine/Ops.lean ====
section
/-! DEFINITION. The named operations over the buffer and the response list: reading and writing bytes, `MemRead` and
`MemWrite` with their bounds check (R14, R44), answering a command, raising a fault (R221, R228), and the load and
store every buffer command shares (R217). -/

namespace Sys2Proof.Machine

/-! ### Bytes -/

/-- The byte at an offset. An offset that is not listed holds 0x00 (log 3). -/
def Memory.get : Memory → Nat → Byte
  | [], _ => 0#8
  | (a, b) :: m, k => if k = a then b else Memory.get m k

/-- `m` with the entry (k, b) put before the first entry of a higher offset. -/
def Memory.insert (k : Nat) (b : Byte) : Memory → Memory
  | [] => [(k, b)]
  | (a, c) :: m => if k < a then (k, b) :: (a, c) :: m else (a, c) :: Memory.insert k b m

/-- `m` without an entry for `k`. -/
def Memory.erase (k : Nat) : Memory → Memory
  | [] => []
  | (a, c) :: m => if a = k then Memory.erase k m else (a, c) :: Memory.erase k m

/-- `m` with the byte at `k` set to `b`; writing 0x00 removes the entry, so the form stays canonical. -/
def Memory.set (m : Memory) (k : Nat) (b : Byte) : Memory :=
  if b = 0#8 then m.erase k else (m.erase k).insert k b

/-- `m` with consecutive bytes written from `a` on, lowest address first. -/
def Memory.setSpan (m : Memory) (a : Nat) : List Byte → Memory
  | [] => m
  | b :: bs => Memory.setSpan (m.set a b) (a + 1) bs

/-- The `n` bytes from `a` on, lowest address first. -/
def Memory.getSpan (m : Memory) (a n : Nat) : List Byte := (List.range n).map fun i => m.get (a + i)

/-- Offsets strictly rising, each above `lo` where one is given, and no byte 0x00 listed. -/
def Memory.wfFrom : Option Nat → Memory → Bool
  | _, [] => true
  | lo, (a, b) :: m => (match lo with | none => true | some l => decide (l < a)) && b != 0#8 && Memory.wfFrom (some a) m

/-- The canonical form of a memory. -/
def Memory.wf (m : Memory) : Bool := Memory.wfFrom none m

/-- Every listed offset exists in a buffer of `len` bytes (R62). -/
def Memory.within (m : Memory) (len : Nat) : Bool := m.all fun p => decide (p.1 < len)

/-! ### Answering a command -/

/-- The command is answered: the host receives `r`, and nothing else changes (R26). -/
def respond (r : Response) (s : State) : State := { s with responses := s.responses ++ [r] }

/-- Raising a fault, the one entry of R221 and R228: the response is the fault status alone; nothing is saved, no mode
changes, control goes nowhere, the buffer is as it was, and BOC accepts the next command. There is no return from a
fault (R229). -/
def raise (f : FaultCode) (s : State) : State := respond (.fault f) s

/-! ### The buffer -/

/-- `MemRead(addr, n)` (R14): the bounds check, then the bytes of the span, lowest address first. -/
def memRead (s : State) (off : Word32) (n : Nat) : Except FaultCode (List Byte) :=
  if inBounds off n s.len then .ok (s.mem.getSpan (spanStart off) n) else .error .bounds

/-- `MemWrite(addr, n, s)` (R14): the bounds check before any byte is written (R53), then the bytes of the span. -/
def memWrite (s : State) (off : Word32) (bs : List Byte) : Except FaultCode State :=
  if inBounds off bs.length s.len then .ok { s with mem := s.mem.setSpan (spanStart off) bs } else .error .bounds

/-- A load (R217): the `w` bytes of the span combined in the command's order and answered by `mk`, or Bounds. -/
def load (W w : Nat) (mk : BitVec W → Response) (d : Desc) (off : Word32) (s : State) : State :=
  match memRead s off w with
  | .ok bs => respond (mk (combine W (select d) bs)) s
  | .error f => raise f s

/-- A store (R217): the `w` bytes of the value placed in the command's order and answered without payload (R81), or
Bounds and nothing written (R53). -/
def store (w : Nat) {W : Nat} (d : Desc) (off : Word32) (v : BitVec W) (s : State) : State :=
  match memWrite s off (place (select d) w v) with
  | .ok s' => respond .done s'
  | .error f => raise f s

/-! ### Counts -/

/-- The check the four format-N commands share: Range on a count above 64 (R224), else the response `r`. -/
def withCount (n : Byte) (r : Nat → Response) (s : State) : State :=
  if n.toNat > Config.registerBits then raise .range s else respond (r n.toNat) s

end Sys2Proof.Machine
end

