-- ==== Sys2Proof/Machine/BitReversal.lean ====
section
/-! DEFINITION. The BitReversal family: REVERSE and REVERSELEFT (R160 to R165). The descriptor has no effect (R88). -/

namespace Sys2Proof.Machine

/-- The lowest `n` bits reversed and right-aligned, `r[i] = v[n-1-i]` for `i < n`, 0 above (R160). `n = 0` gives 0
(R162). -/
def reverseLow (v : Word64) (n : Nat) : Word64 :=
  ofBits 64 fun i => decide (i < n) && v.getLsbD (n - 1 - i)

/-- The highest `n` bits reversed and left-aligned, `r[63-i] = v[64-n+i]` for `i < n`, 0 below (R161). `n = 0` gives 0
(R162). -/
def reverseHigh (v : Word64) (n : Nat) : Word64 :=
  ofBits 64 fun j => decide (63 - j < n) && v.getLsbD (64 - n + (63 - j))

/-- One run of the loop of R163: the accumulator takes the lowest bit of what remains, `m` steps to go; once what
remains is zero the accumulator is shifted by the steps left and the loop ends. -/
def reverseLoop (r v : Word64) : Nat → Word64
  | 0 => r
  | m + 1 =>
    let r' := r <<< 1 ||| (if v.getLsbD 0 then 1#64 else 0#64)
    let v' := v >>> 1
    if v' = 0#64 then r' <<< m else reverseLoop r' v' m

/-- The iterative form GH describes, with its short-circuit (R163). No meaning calls it. -/
def reverseIterative (v : Word64) (n : Nat) : Word64 := reverseLoop 0#64 v n

/-- REVERSE (R160, R162, R165). -/
def execReverse (_d : Desc) (n : Byte) (v64 : Word64) (s : State) : Host.Outcome State Fault Refusal :=
  .next (withCount n (fun k => .res64 (reverseLow v64 k)) s)

/-- REVERSELEFT (R161, R162, R165). -/
def execReverseLeft (_d : Desc) (n : Byte) (v64 : Word64) (s : State) : Host.Outcome State Fault Refusal :=
  .next (withCount n (fun k => .res64 (reverseHigh v64 k)) s)

end Sys2Proof.Machine
end

