-- ==== Sys2Proof/Machine/BitString.lean ====
section
/-! DEFINITION. The BitStringCodec family: TOBITSTR, TOLASTBITSTR, FROMBITSTR, BITSTR2LONG (R180 to R188). -/

namespace Sys2Proof.Machine

/-- The characters of bits 63 down to 64 - n (R181). -/
def topBitString (v : Word64) (n : Nat) : List Byte := (List.range n).map fun k => chr (v.getLsbD (63 - k))

/-- The characters of bits n - 1 down to 0 (R182). -/
def lastBitString (v : Word64) (n : Nat) : List Byte := (List.range n).map fun k => chr (v.getLsbD (n - 1 - k))

/-- The string's bits from bit 63 down, zeros below (R183). -/
def packString (cs : List Byte) : Word64 := ofBits 64 fun j => bitAt cs (63 - j)

/-- The number of bytes of a string, the last one filled up (R186). -/
def byteCount (cs : List Byte) : Nat := (cs.length + 7) / 8

/-- Group `g` of eight characters as a byte, the first character in bit 7; the string is padded on the right with '0'
(R186). -/
def groupByte (cs : List Byte) (g : Nat) : Byte := ofBits 8 fun j => bitAt cs (8 * g + (7 - j))

/-- The byte sequence of a string: the groups in string order under `BIG`, in reverse under `LITTLE` (R186). -/
def stringBytes (o : Order) (cs : List Byte) : List Byte :=
  (List.range (byteCount cs)).map fun i =>
    groupByte cs (match o with | .big => i | .little => byteCount cs - 1 - i)

/-- The eight characters of a byte, bit 7 first (R184). -/
def byteString (b : Byte) : List Byte := (List.range 8).map fun k => chr (b.getLsbD (7 - k))

/-- The rendering of a byte sequence under an order, a helper of the spec and no command (R184, N16). -/
def render (o : Order) (bs : List Byte) : List Byte :=
  match o with
  | .big => bs.flatMap byteString
  | .little => bs.reverse.flatMap byteString

/-- TOBITSTR (R181, R188). -/
def execToBitStr (_d : Desc) (n : Byte) (v64 : Word64) (s : State) : Host.Outcome State Fault Refusal :=
  .next (withCount n (fun k => .str (topBitString v64 k)) s)

/-- TOLASTBITSTR (R182, R188). -/
def execToLastBitStr (_d : Desc) (n : Byte) (v64 : Word64) (s : State) : Host.Outcome State Fault Refusal :=
  .next (withCount n (fun k => .str (lastBitString v64 k)) s)

/-- FROMBITSTR (R186): BadChar on a character outside the alphabet, whatever the length (R185). -/
def execFromBitStr (d : Desc) (cs : List Byte) (s : State) : Host.Outcome State Fault Refusal :=
  .next (if cs.all isBitChar then respond (.bytes (stringBytes (select d) cs)) s else raise .badChar s)

/-- BITSTR2LONG (R183): the length is tested first (R227), then the characters (R185). -/
def execBitStr2Long (_d : Desc) (cs : List Byte) (s : State) : Host.Outcome State Fault Refusal :=
  .next
    (if cs.length > Config.registerBits then raise .invalidInput s
     else if cs.all isBitChar then respond (.res64 (packString cs)) s
     else raise .badChar s)

end Sys2Proof.Machine
end

