-- ==== Sys2Proof/Machine/ByteOrderCodec.lean ====
section
/-! DEFINITION. The ByteOrderCodec family: TOINT, FROMINT, TOLONG, TOLONGP, FROMLONG (R110 to R114). -/

namespace Sys2Proof.Machine

/-- TOINT (R110). -/
def execToInt (d : Desc) (off : Word32) (s : State) : Host.Outcome State Fault Refusal :=
  .next (load 32 4 .res32 d off s)

/-- FROMINT (R111). -/
def execFromInt (d : Desc) (off v32 : Word32) (s : State) : Host.Outcome State Fault Refusal :=
  .next (store 4 d off v32 s)

/-- TOLONG (R112). -/
def execToLong (d : Desc) (off : Word32) (s : State) : Host.Outcome State Fault Refusal :=
  .next (load 64 8 .res64 d off s)

/-- The two halves combined, the half in bits 31:0 widened with zeros: `low` there under `LITTLE`, `high` there under
`BIG` (R113). -/
def combineHalves (o : Order) (hi lo : Word32) : Word64 :=
  match o with
  | .little => hi.setWidth 64 <<< 32 ||| lo.setWidth 64
  | .big => lo.setWidth 64 <<< 32 ||| hi.setWidth 64

/-- TOLONGP (R113). -/
def execToLongP (d : Desc) (hi lo : Word32) (s : State) : Host.Outcome State Fault Refusal :=
  .next (respond (.res64 (combineHalves (select d) hi lo)) s)

/-- FROMLONG (R114). -/
def execFromLong (d : Desc) (off : Word32) (v64 : Word64) (s : State) : Host.Outcome State Fault Refusal :=
  .next (store 8 d off v64 s)

end Sys2Proof.Machine
end

