-- ==== Sys2Proof/Machine/NumericBridge.lean ====
section
/-! DEFINITION. The NumericBridge family: TOFLOAT, FROMFLOAT, TODOUBLE, FROMDOUBLE (R140 to R143). A floating value is
its raw pattern and no bit of it is ever changed (R144, R145), so each is the load or the store of its width. -/

namespace Sys2Proof.Machine

/-- TOFLOAT (R140). -/
def execToFloat (d : Desc) (off : Word32) (s : State) : Host.Outcome State Fault Refusal :=
  .next (load 32 4 .res32 d off s)

/-- FROMFLOAT (R141). -/
def execFromFloat (d : Desc) (off v32 : Word32) (s : State) : Host.Outcome State Fault Refusal :=
  .next (store 4 d off v32 s)

/-- TODOUBLE (R142). -/
def execToDouble (d : Desc) (off : Word32) (s : State) : Host.Outcome State Fault Refusal :=
  .next (load 64 8 .res64 d off s)

/-- FROMDOUBLE (R143). -/
def execFromDouble (d : Desc) (off : Word32) (v64 : Word64) (s : State) : Host.Outcome State Fault Refusal :=
  .next (store 8 d off v64 s)

end Sys2Proof.Machine
end

