-- ==== Sys2Proof/Machine/Registry.lean ====
section
/-! DEFINITION. The CodecRegistry family: GET (R211). -/

namespace Sys2Proof.Machine

/-- The canonical descriptor of an order, widened with zeros to 32 bits (R211). -/
def canonicalDesc : Order → Word32
  | .little => 0x00000000#32
  | .big => 0x00000001#32

/-- GET (R211): answers the canonical descriptor of the selected order; nothing is latched (R212). -/
def execGet (d : Desc) (s : State) : Host.Outcome State Fault Refusal :=
  .next (respond (.res32 (canonicalDesc (select d))) s)

end Sys2Proof.Machine
end

