-- ==== Sys2Proof/Machine/Dispatch.lean ====
section
/-! DEFINITION. One arm per command, each one direct call of its meaning. -/

namespace Sys2Proof.Machine

def exec (i : Instr) (s : State) : Host.Outcome State Fault Refusal :=
  match i with
  | .get d => Sys2Proof.Machine.execGet d s
  | .toInt d off => Sys2Proof.Machine.execToInt d off s
  | .fromInt d off v32 => Sys2Proof.Machine.execFromInt d off v32 s
  | .toLong d off => Sys2Proof.Machine.execToLong d off s
  | .toLongP d hi lo => Sys2Proof.Machine.execToLongP d hi lo s
  | .fromLong d off v64 => Sys2Proof.Machine.execFromLong d off v64 s
  | .toFloat d off => Sys2Proof.Machine.execToFloat d off s
  | .fromFloat d off v32 => Sys2Proof.Machine.execFromFloat d off v32 s
  | .toDouble d off => Sys2Proof.Machine.execToDouble d off s
  | .fromDouble d off v64 => Sys2Proof.Machine.execFromDouble d off v64 s
  | .toBitStr d n v64 => Sys2Proof.Machine.execToBitStr d n v64 s
  | .toLastBitStr d n v64 => Sys2Proof.Machine.execToLastBitStr d n v64 s
  | .fromBitStr d cs => Sys2Proof.Machine.execFromBitStr d cs s
  | .reverse d n v64 => Sys2Proof.Machine.execReverse d n v64 s
  | .reverseLeft d n v64 => Sys2Proof.Machine.execReverseLeft d n v64 s
  | .bitStr2Long d cs => Sys2Proof.Machine.execBitStr2Long d cs s

end Sys2Proof.Machine
end

