-- ==== Sys2Proof/Machine/HostPort.lean ====
section
/-! DEFINITION. The host's side of the interface: what the host does to the buffer between two commands (R34), the
reset (R260), taking the next event, and the pseudo-forms of R95, which are commands or host events and have no
encoding of their own. -/

namespace Sys2Proof.Machine

/-- The contents of a buffer whose bytes these are, offset 0 first. -/
def Memory.ofBytes (bs : List Byte) : Memory := Memory.setSpan [] 0 bs

/-- `s` with the buffer whose bytes these are bound (R34). -/
def bindBuffer (bs : List Byte) (s : State) : State := { s with len := bs.length, mem := Memory.ofBytes bs }

/-- The state in which a run starts on a given buffer: `LEN` and the initial bytes are launch parameters (R35, R260). -/
def State.launch (bs : List Byte) : State := bindBuffer bs State.reset

/-- What the host reads at an offset between two commands, with no effect; nothing where the offset does not exist
(R34, R62). -/
def State.hostByte (s : State) (k : Nat) : Option Byte := if k < s.len then some (s.mem.get k) else none

/-- The bytes of the bound buffer from offset 0 on. -/
def State.bytes (s : State) : List Byte := s.mem.getSpan 0 s.len

/-- The host writes a byte of the buffer (R34); an offset at or beyond `LEN` does not exist (log 7). -/
def hostWrite (k : Nat) (b : Byte) (s : State) : Host.Outcome State Fault Refusal :=
  if k < s.len then .next { s with mem := s.mem.set k b } else .fault .hostWriteOutsideBuffer

/-- The host binds another buffer of any length up to `BUF_LEN_MAX` (R34, R11, log 7). -/
def hostBind (bs : List Byte) (s : State) : Host.Outcome State Fault Refusal :=
  if bs.length ≤ Config.bufLenMax then .next (bindBuffer bs s) else .refused .bufferTooLong

/-- A reset between two commands: the identity on the block, and the buffer is the host's (R260). -/
def applyReset (s : State) : Host.Outcome State Fault Refusal := .next s

/-- The host's next event and the state without it, `none` where nothing is pending (R27). -/
def takeEvent (s : State) : Option (HostEvent × State) :=
  match s.pending with
  | [] => none
  | e :: es => some (e, { s with pending := es })

/-- Raising Illegal for a bit vector that is not a command, before any operation is chosen (R226). -/
def answerIllegal (s : State) : Host.Outcome State Fault Refusal := .next (raise .illegal s)

/-- No event reaches BOC except a command (R230): with nothing pending a step changes nothing (log 5). -/
def idle (s : State) : Host.Outcome State Fault Refusal := .next s

/-! ### Pseudo-forms (R95) -/

/-- `TOINT.o` with no operand. -/
def pseudoToInt (d : Desc) : Instr := .toInt d 0#32

/-- `TOLONG.o` with no operand. -/
def pseudoToLong (d : Desc) : Instr := .toLong d 0#32

/-- `TOFLOAT.o` with no operand. -/
def pseudoToFloat (d : Desc) : Instr := .toFloat d 0#32

/-- `TODOUBLE.o` with no operand. -/
def pseudoToDouble (d : Desc) : Instr := .toDouble d 0#32

/-- `FROMINT.o v32=x` with no offset. -/
def pseudoFromInt (d : Desc) (v : Word32) : Instr := .fromInt d 0#32 v

/-- `FROMFLOAT.o v32=x` with no offset. -/
def pseudoFromFloat (d : Desc) (v : Word32) : Instr := .fromFloat d 0#32 v

/-- `FROMLONG.o v64=x` with no offset. -/
def pseudoFromLong (d : Desc) (v : Word64) : Instr := .fromLong d 0#32 v

/-- `FROMDOUBLE.o v64=x` with no offset. -/
def pseudoFromDouble (d : Desc) (v : Word64) : Instr := .fromDouble d 0#32 v

/-- `TOBITSTR v64=x` with no count: the count is 64, the descriptor `00` (R94). -/
def pseudoToBitStr (v : Word64) : Instr := .toBitStr .l 64#8 v

/-- `… NEW, …`: the host binds a fresh buffer, whose bytes before the command are whatever they are, and issues the
command with offset 0. -/
def withFreshBuffer (fresh : List Byte) (i : Instr) : List HostEvent := [.bind fresh, .command (encode i)]

end Sys2Proof.Machine
end

