-- ==== Sys2Proof/Machine/Step.lean ====
section
/-! DEFINITION. One step: the host's next event takes place. A command is decoded and executed as one atomic step
`(BUF, CMD) -> (BUF', RSP)` (R26, R27). -/

namespace Sys2Proof.Machine

/-- A command presented to BOC: Illegal where it does not decode, else the meaning of what it decodes to (R89). -/
def runCommand (c : Bits) (s : State) : Host.Outcome State Fault Refusal :=
  match decode c with
  | .ok i => exec i s
  | .error _ => answerIllegal s

/-- One event of the host. -/
def runEvent (e : HostEvent) (s : State) : Host.Outcome State Fault Refusal :=
  match e with
  | .command c => runCommand c s
  | .write k b => hostWrite k b s
  | .bind bs => hostBind bs s
  | .reset => applyReset s

/-- The step. -/
def step (s : State) : Host.Outcome State Fault Refusal :=
  match takeEvent s with
  | none => idle s
  | some (e, s') => runEvent e s'

/-- `s` with the host about to issue the command of a row's word before anything else (log 4, log 10). -/
def State.withFetchWord (s : State) (nbits w : Nat) : State :=
  { s with pending := .command (tableWord nbits w) :: s.pending }

end Sys2Proof.Machine
end

