-- ==== Sys2Proof/Safety.lean ====
section
/-! DEFINITION. The terms the statements use: the invariant of the state, the host events the spec gives the host, which
bytes a command may write, which fault it must raise, and the shape of its answer. -/

namespace Sys2Proof.Machine

/-- The invariant: the memory is canonical, every listed offset exists (R62), and the buffer is one a host may bind
(R11, R21). -/
def State.Inv (s : State) : Bool := s.mem.wf && s.mem.within s.len && decide (s.len ≤ Config.bufLenMax)

/-- The host's events, from a buffer of `len` bytes on, are acts the spec gives the host (R34): it writes only offsets
that exist then and binds only buffers of at most `BUF_LEN_MAX` bytes. Commands are unrestricted. -/
def hostScript : Nat → List HostEvent → Bool
  | _, [] => true
  | len, .command _ :: es => hostScript len es
  | len, .write k _ :: es => decide (k < len) && hostScript len es
  | _, .bind bs :: es => decide (bs.length ≤ Config.bufLenMax) && hostScript bs.length es
  | len, .reset :: es => hostScript len es

/-- The span a buffer command names, as its offset and width; `none` for the eight others (R41). -/
def commandSpan (i : Instr) : Option (Word32 × Nat) :=
  match i with
  | .get _ => none
  | .toInt _ off => some (off, 4)
  | .fromInt _ off _ => some (off, 4)
  | .toLong _ off => some (off, 8)
  | .toLongP _ _ _ => none
  | .fromLong _ off _ => some (off, 8)
  | .toFloat _ off => some (off, 4)
  | .fromFloat _ off _ => some (off, 4)
  | .toDouble _ off => some (off, 8)
  | .fromDouble _ off _ => some (off, 8)
  | .toBitStr _ _ _ => none
  | .toLastBitStr _ _ _ => none
  | .fromBitStr _ _ => none
  | .reverse _ _ _ => none
  | .reverseLeft _ _ _ => none
  | .bitStr2Long _ _ => none

/-- The four commands that write their span (R21, R41). -/
def writesBuffer (i : Instr) : Bool :=
  match i with
  | .fromInt _ _ _ => true
  | .fromLong _ _ _ => true
  | .fromFloat _ _ _ => true
  | .fromDouble _ _ _ => true
  | .get _ => false
  | .toInt _ _ => false
  | .toLong _ _ => false
  | .toLongP _ _ _ => false
  | .toFloat _ _ => false
  | .toDouble _ _ => false
  | .toBitStr _ _ _ => false
  | .toLastBitStr _ _ _ => false
  | .fromBitStr _ _ => false
  | .reverse _ _ _ => false
  | .reverseLeft _ _ _ => false
  | .bitStr2Long _ _ => false

/-- Offset `k` lies in the span the command names. -/
def touches (i : Instr) (k : Nat) : Prop :=
  ∃ off w, commandSpan i = some (off, w) ∧ off.toInt ≤ (k : Int) ∧ (k : Int) < off.toInt + w

/-- A span is within a buffer of `len` bytes (R44). -/
def spanFits (off : Word32) (w len : Nat) : Prop := 0 ≤ off.toInt ∧ off.toInt + (w : Int) ≤ (len : Int)

/-- The code is one of the two characters (R86). -/
def isCharCode (c : Byte) : Prop := c = 0x30#8 ∨ c = 0x31#8

/-- The condition under which a decoded command raises a fault, on a buffer of `len` bytes, in the order of R227
(R222 to R225, R239). -/
def faultCondition (i : Instr) (len : Nat) (f : FaultCode) : Prop :=
  match i with
  | .get _ => False
  | .toLongP _ _ _ => False
  | .toInt _ off => f = .bounds ∧ ¬ spanFits off 4 len
  | .fromInt _ off _ => f = .bounds ∧ ¬ spanFits off 4 len
  | .toLong _ off => f = .bounds ∧ ¬ spanFits off 8 len
  | .fromLong _ off _ => f = .bounds ∧ ¬ spanFits off 8 len
  | .toFloat _ off => f = .bounds ∧ ¬ spanFits off 4 len
  | .fromFloat _ off _ => f = .bounds ∧ ¬ spanFits off 4 len
  | .toDouble _ off => f = .bounds ∧ ¬ spanFits off 8 len
  | .fromDouble _ off _ => f = .bounds ∧ ¬ spanFits off 8 len
  | .toBitStr _ n _ => f = .range ∧ n.toNat > 64
  | .toLastBitStr _ n _ => f = .range ∧ n.toNat > 64
  | .reverse _ n _ => f = .range ∧ n.toNat > 64
  | .reverseLeft _ n _ => f = .range ∧ n.toNat > 64
  | .bitStr2Long _ cs =>
      (f = .invalidInput ∧ cs.length > 64) ∨ (f = .badChar ∧ cs.length ≤ 64 ∧ ∃ c ∈ cs, ¬ isCharCode c)
  | .fromBitStr _ cs => f = .badChar ∧ ∃ c ∈ cs, ¬ isCharCode c

/-- The response format of the command's row of R90, with a success payload of that format (R81 to R84). -/
def answersInFormat (i : Instr) (r : Response) : Prop :=
  match i with
  | .get _ => ∃ v, r = .res32 v
  | .toInt _ _ => ∃ v, r = .res32 v
  | .toFloat _ _ => ∃ v, r = .res32 v
  | .toLong _ _ => ∃ v, r = .res64 v
  | .toLongP _ _ _ => ∃ v, r = .res64 v
  | .toDouble _ _ => ∃ v, r = .res64 v
  | .reverse _ _ _ => ∃ v, r = .res64 v
  | .reverseLeft _ _ _ => ∃ v, r = .res64 v
  | .bitStr2Long _ _ => ∃ v, r = .res64 v
  | .fromInt _ _ _ => r = .done
  | .fromLong _ _ _ => r = .done
  | .fromFloat _ _ _ => r = .done
  | .fromDouble _ _ _ => r = .done
  | .toBitStr _ n _ => ∃ cs, r = .str cs ∧ cs.length = n.toNat ∧ ∀ c ∈ cs, isCharCode c
  | .toLastBitStr _ n _ => ∃ cs, r = .str cs ∧ cs.length = n.toNat ∧ ∀ c ∈ cs, isCharCode c
  | .fromBitStr _ cs => ∃ bs, r = .bytes bs ∧ bs.length = (cs.length + 7) / 8

/-- The vector has the length and the header of a command of one of the seven formats (R71 to R78, R89 to R92). -/
def legalVector (c : Bits) : Prop :=
  8 ≤ c.clen ∧ c.field 6 2 = 0#2 ∧
    match (c.field 0 4).toNat with
    | 0 => c.clen = 8
    | 1 | 3 | 6 | 8 => c.clen = 40
    | 2 | 7 | 4 => c.clen = 72
    | 5 | 9 => c.clen = 104
    | 10 | 11 | 13 | 14 => c.clen = 80
    | _ => 24 ≤ c.clen ∧ c.clen = 24 + 8 * (c.field 8 16).toNat

/-- The vector is the format-S command of an opcode, a descriptor and a string, field by field (R71, R78). -/
def isFormatS (c : Bits) (d : Desc) (opc : BitVec 4) (cs : List Byte) : Prop :=
  cs.length ≤ Config.strMax ∧ c.clen = 24 + 8 * cs.length ∧ c.field 0 8 = 0#2 ++ d.toBits ++ opc ∧
    c.field 8 16 = BitVec.ofNat 16 cs.length ∧
    ∀ (i : Nat) (h : i < cs.length), c.field (24 + 8 * i) 8 = cs[i]

end Sys2Proof.Machine
end

