-- ==== Sys2Proof/Certificates/Slice0/Obligations.lean ====
section
/-! DEFINITION. The statements, from the numbered rules of spec/. An answered command is written out as the state with
one more response: everything a statement does not name is unchanged. Offsets are read as the spec reads them, signed
and on unbounded integers (R15, R79). -/

open Sys2Proof Sys2Proof.Machine

/-! ### Encoding -/

/-- Decoding the word of a well-formed command gives the command back, with every operand (R71 to R78). -/
def Obligations.DecodeOfEncodeIsIdentity : Prop :=
  ∀ i : Instr, i.wf = true → decode (encode i) = .ok i

/-- Every vector that decodes is the word of the well-formed command it decodes to: a word has one meaning and no bit of
it is dropped (R70 to R78). -/
def Obligations.EncodeOfDecodeIsIdentity : Prop :=
  ∀ (c : Bits) (i : Instr), decode c = .ok i → i.wf = true ∧ encode i = c

/-- Words of the spec's own examples decode to the commands it writes beside them (the examples of R110, R111, R113, R143,
R160, R183 and R211). -/
def Obligations.SpecWordsDecodeToTheirCommands : Prop :=
  decode ⟨8, 0x10#8⟩ = .ok (.get .b) ∧
  decode ⟨40, 0x0000000011#40⟩ = .ok (.toInt .b 0#32) ∧
  decode ⟨72, 0x000000010000000002#72⟩ = .ok (.fromInt .l 0#32 1#32) ∧
  decode ⟨72, 0x112233445566778804#72⟩ = .ok (.toLongP .l 0x11223344#32 0x55667788#32) ∧
  decode ⟨104, 0x7FF80000000000010000000009#104⟩ = .ok (.fromDouble .l 0#32 0x7FF8000000000001#64) ∧
  decode ⟨80, 0x000000000000000B040D#80⟩ = .ok (.reverse .l 4#8 0xB#64) ∧
  decode ⟨56, 0x3031303100040F#56⟩ = .ok (.bitStr2Long .l [0x31#8, 0x30#8, 0x31#8, 0x30#8])

/-- The vectors that decode are exactly those with a header, with `H[7:6]` = 00 and with the length of their opcode's
format; any other is answered Illegal, and nothing else changes (R89, R91, R92, R226; the spec's decision D8). -/
def Obligations.IllegalVectorsAreAnsweredIllegal : Prop :=
  (∀ c : Bits, (∃ i, decode c = .ok i) ↔ legalVector c) ∧
  ∀ (s : State) (c : Bits) (es : List HostEvent), s.pending = .command c :: es → ¬ legalVector c →
    step s = .next { s with pending := es, responses := s.responses ++ [.fault .illegal] }

/-- A vector that is, field by field, a format-S command of opcode 12 or 15 decodes to that command with its characters
in order (R78, R90; the spec's decision D4). -/
def Obligations.StringVectorsDecodeToTheirCharacters : Prop :=
  ∀ (c : Bits) (d : Desc) (cs : List Byte),
    (isFormatS c d 12#4 cs → decode c = .ok (.fromBitStr d cs)) ∧
    (isFormatS c d 15#4 cs → decode c = .ok (.bitStr2Long d cs))

/-- The order of a decoded command is `BIG` exactly when its `ORD` field holds 01; 00, 10 and 11 select `LITTLE`
(R87, R210; the spec's decision D7). -/
def Obligations.SelectorIsBigOnlyForDescriptor01 : Prop :=
  ∀ (c : Bits) (i : Instr), decode c = .ok i →
    select i.desc = if c.field 4 2 = 1#2 then Order.big else Order.little

/-! ### The step -/

/-- When the host's next event is a vector that decodes to `i`, the step is `exec i` on the state without that event
(R26, R27). -/
def Obligations.StepRunsTheDecodedCommand : Prop :=
  ∀ (s : State) (c : Bits) (es : List HostEvent) (i : Instr),
    s.pending = .command c :: es → decode c = .ok i → step s = exec i { s with pending := es }

/-- Every command, legal or not, is answered by exactly one response, and leaves `LEN` and the events to come as they
were: a command never stops the machine (R26, R266). -/
def Obligations.EveryCommandIsAnsweredOnce : Prop :=
  ∀ (s : State) (c : Bits) (es : List HostEvent), s.pending = .command c :: es →
    ∃ (t : State) (r : Response), step s = .next t ∧ t.responses = s.responses ++ [r] ∧ t.pending = es ∧ t.len = s.len

/-- A list of commands issued in order runs to its end, faults or not, with one response each and `LEN` unchanged
(R27, R229, R266). -/
def Obligations.RunAnswersEveryCommand : Prop :=
  ∀ (cs : List Bits) (s : State), s.pending = cs.map .command →
    ∃ (t : State) (rs : List Response), Sys2Proof.core.run cs.length s = .next t ∧ t.pending = [] ∧ t.len = s.len ∧
      rs.length = cs.length ∧ t.responses = s.responses ++ rs

/-- With host events the spec gives the host, no run of any length stops, and the invariant holds along it
(R34, R266; which host events the model stops on is log 7, that a step with nothing pending changes nothing is
log 5, the canonical form in the invariant is log 3). -/
def Obligations.LawfulHostRunNeverStops : Prop :=
  ∀ (n : Nat) (s : State), hostScript s.len s.pending = true → s.Inv = true →
    ∃ t : State, Sys2Proof.core.run n s = .next t ∧ hostScript t.len t.pending = true ∧ t.Inv = true

/-- Every step keeps the invariant: the memory is canonical, every listed offset is one of 0 to `LEN` - 1, and `LEN` is
at most `BUF_LEN_MAX` (R11, R21, R62; the canonical form is the model's choice, log 3). -/
def Obligations.EveryStepKeepsBufferCanonical : Prop :=
  ∀ s t : State, s.Inv = true → step s = .next t → t.Inv = true

/-- The reset state meets the invariant, with nothing issued and nothing received (R260; the empty buffer is log 2, the
empty lists log 4, the canonical form log 3). -/
def Obligations.ResetStateIsCanonicalAndIdle : Prop :=
  State.reset.Inv = true ∧ State.reset.pending = [] ∧ State.reset.responses = []

/-! ### Purity, frames and order of commands -/

/-- A command is a function of its operands and of the bytes of its span: on two states with buffers of one length that
agree on the span, it gives the same response and the same span afterwards, whatever else they hold (R9, R20). -/
def Obligations.CommandDependsOnItsSpanOnly : Prop :=
  ∀ (i : Instr) (s t : State), s.len = t.len → (∀ k, touches i k → s.mem.get k = t.mem.get k) →
    ∃ (r : Response) (s' t' : State), exec i s = .next s' ∧ exec i t = .next t' ∧
      s'.responses = s.responses ++ [r] ∧ t'.responses = t.responses ++ [r] ∧
      ∀ k, touches i k → s'.mem.get k = t'.mem.get k

/-- No command changes `LEN`, the events to come, an earlier response, or a byte outside its span; a command that is
none of the four writing ones changes no byte at all (R21, R41, R61). -/
def Obligations.OnlyTheSpanOfAWriteChanges : Prop :=
  ∀ (i : Instr) (s : State), ∃ (t : State) (r : Response), exec i s = .next t ∧
    t.len = s.len ∧ t.pending = s.pending ∧ t.responses = s.responses ++ [r] ∧
    (writesBuffer i = false → t.mem = s.mem) ∧
    ∀ k, ¬ touches i k → t.mem.get k = s.mem.get k

/-- A decoded command raises a fault exactly under the condition its rule gives, with length before characters in
BITSTR2LONG; it is then answered by that fault and nothing else changes. Otherwise it succeeds with a payload of its
row's format (R222 to R225, R227, R239, R81 to R84; Range and BadChar are the spec's decisions D12 and D13). -/
def Obligations.CommandFaultsExactlyWhenItsRuleSays : Prop :=
  ∀ (i : Instr) (s : State),
    (∀ f, faultCondition i s.len f → exec i s = .next { s with responses := s.responses ++ [.fault f] }) ∧
    ((∀ f, ¬ faultCondition i s.len f) →
      ∃ (r : Response) (m : Memory), answersInFormat i r ∧
        exec i s = .next { s with mem := m, responses := s.responses ++ [r] })

/-- A command issued twice gives the same response twice, and the second changes no byte (R52). -/
def Obligations.RepeatedCommandRepeatsItsAnswer : Prop :=
  ∀ (i : Instr) (s : State), ∃ (r : Response) (t u : State), exec i s = .next t ∧ exec i t = .next u ∧
    u.responses = s.responses ++ [r, r] ∧ ∀ k, u.mem.get k = t.mem.get k

/-- Two commands whose spans meet nowhere, or meet without either writing, commute: in either order each gives the same
response and the buffer ends the same (R55; one host issues both, log 9; that equal
bytes are equal memories rests on the canonical form, log 3). -/
def Obligations.DisjointCommandsCommute : Prop :=
  ∀ (i j : Instr) (s : State),
    (∀ k, touches i k → touches j k → writesBuffer i = false ∧ writesBuffer j = false) →
    ∃ (ri rj : Response) (si sij sj sji : State),
      exec i s = .next si ∧ exec j si = .next sij ∧ exec j s = .next sj ∧ exec i sj = .next sji ∧
      sij.responses = s.responses ++ [ri, rj] ∧ sji.responses = s.responses ++ [rj, ri] ∧
      sij.len = sji.len ∧ (∀ k, sij.mem.get k = sji.mem.get k) ∧ (s.Inv = true → sij.mem = sji.mem)

/-! ### The host and the reset -/

/-- Between two commands the host writes any byte of the buffer, changing that byte alone, or binds another buffer of at
most `BUF_LEN_MAX` bytes, which then holds exactly the bytes bound (R34). The model's own choices: a write outside the
buffer faults and a longer buffer is refused (log 7); the memory is canonical and an offset at or beyond the bound length,
which R62 says does not exist, reads as 0x00 (log 3). -/
def Obligations.HostWritesAndBindsTheBuffer : Prop :=
  ∀ (s : State) (es : List HostEvent),
    (∀ k b, s.pending = .write k b :: es →
      (k < s.len → ∃ m, step s = .next { s with mem := m, pending := es } ∧ m.get k = b ∧
        ∀ j, j ≠ k → m.get j = s.mem.get j) ∧
      (s.len ≤ k → step s = .fault .hostWriteOutsideBuffer)) ∧
    (∀ bs : List Byte, s.pending = .bind bs :: es →
      (bs.length ≤ 2147483647 → ∃ m, step s = .next { s with len := bs.length, mem := m, pending := es } ∧
        m.wf = true ∧ (∀ (k : Nat) (h : k < bs.length), m.get k = bs[k]) ∧ ∀ k, bs.length ≤ k → m.get k = 0#8) ∧
      (2147483647 < bs.length → step s = .refused .bufferTooLong))

/-- A reset between two commands changes nothing a command can observe, the buffer and the responses included (R260; that the
host's own two lists stay as they are is log 11). -/
def Obligations.ResetEventChangesNothing : Prop :=
  ∀ (s : State) (es : List HostEvent), s.pending = .reset :: es → step s = .next { s with pending := es }

/-- Every launch is reached from reset: binding `bs` gives the launch state whose buffer holds exactly `bs`, any length
and any bytes (R35, R260; the empty buffer before the bind is log 2, the canonical form log 3). -/
def Obligations.EveryLaunchIsReachedFromReset : Prop :=
  ∀ bs : List Byte, bs.length ≤ 2147483647 →
    step { State.reset with pending := [.bind bs] } = .next (State.launch bs) ∧
    (State.launch bs).bytes = bs ∧ (State.launch bs).len = bs.length ∧ (State.launch bs).Inv = true

/-- The forms without a destination buffer: whatever the fresh buffer held, after the host binds it and the command runs
its bytes are the value's in the order; any offset but 0 raises Bounds on such a buffer (R95). -/
def Obligations.FreshBufferFormsOverwriteTheWholeBuffer : Prop :=
  ∀ (d : Desc) (fresh : List Byte) (s : State) (es : List HostEvent),
    (∀ (v : Word32) (i : Instr), fresh.length = 4 → (i = pseudoFromInt d v ∨ i = pseudoFromFloat d v) →
      s.pending = withFreshBuffer fresh i ++ es →
      ∃ t u : State, step s = .next t ∧ step t = .next u ∧ u.len = 4 ∧ u.pending = es ∧
        u.responses = s.responses ++ [.done] ∧
        u.bytes = match select d with
          | .little => [v.extractLsb' 0 8, v.extractLsb' 8 8, v.extractLsb' 16 8, v.extractLsb' 24 8]
          | .big => [v.extractLsb' 24 8, v.extractLsb' 16 8, v.extractLsb' 8 8, v.extractLsb' 0 8]) ∧
    (∀ (v : Word64) (i : Instr), fresh.length = 8 → (i = pseudoFromLong d v ∨ i = pseudoFromDouble d v) →
      s.pending = withFreshBuffer fresh i ++ es →
      ∃ t u : State, step s = .next t ∧ step t = .next u ∧ u.len = 8 ∧ u.pending = es ∧
        u.responses = s.responses ++ [.done] ∧
        u.bytes = match select d with
          | .little => [v.extractLsb' 0 8, v.extractLsb' 8 8, v.extractLsb' 16 8, v.extractLsb' 24 8,
              v.extractLsb' 32 8, v.extractLsb' 40 8, v.extractLsb' 48 8, v.extractLsb' 56 8]
          | .big => [v.extractLsb' 56 8, v.extractLsb' 48 8, v.extractLsb' 40 8, v.extractLsb' 32 8,
              v.extractLsb' 24 8, v.extractLsb' 16 8, v.extractLsb' 8 8, v.extractLsb' 0 8]) ∧
    (∀ (v : Word32) (off : Word32), s.len = 4 → off ≠ 0#32 →
      exec (.fromInt d off v) s = .next { s with responses := s.responses ++ [.fault .bounds] } ∧
      exec (.fromFloat d off v) s = .next { s with responses := s.responses ++ [.fault .bounds] }) ∧
    (∀ (v : Word64) (off : Word32), s.len = 8 → off ≠ 0#32 →
      exec (.fromLong d off v) s = .next { s with responses := s.responses ++ [.fault .bounds] } ∧
      exec (.fromDouble d off v) s = .next { s with responses := s.responses ++ [.fault .bounds] })

/-! ### Responses and status -/

/-- The status byte: the five codes of R220, 0x00 exactly where the response is no fault, and no value above 0x05. -/
def Obligations.StatusCodesAreThoseOfTheFiveFaults : Prop :=
  FaultCode.bounds.code = 0x01#8 ∧ FaultCode.invalidInput.code = 0x02#8 ∧ FaultCode.range.code = 0x03#8 ∧
  FaultCode.badChar.code = 0x04#8 ∧ FaultCode.illegal.code = 0x05#8 ∧
  ∀ r : Response, r.status.toNat ≤ 5 ∧ (r.status = 0x00#8 ↔ ∀ f, r ≠ .fault f)

/-- The response word: status in bits 7:0, and the payload of each format at the bit positions of R81 to R84; a fault is
the 8-bit code alone (R80, R85). -/
def Obligations.ResponseWordsHaveTheirFormat : Prop :=
  (∀ r : Response, r.word.field 0 8 = r.status) ∧
  (∀ f, (Response.fault f).word = ⟨8, f.code⟩) ∧
  Response.done.word = ⟨8, 0x00#8⟩ ∧
  (∀ v, (Response.res32 v).word.clen = 40 ∧ (Response.res32 v).word.field 8 32 = v) ∧
  (∀ v, (Response.res64 v).word.clen = 72 ∧ (Response.res64 v).word.field 8 64 = v) ∧
  (∀ bs : List Byte, bs.length ≤ 65535 → ∀ r, (r = Response.str bs ∨ r = Response.bytes bs) →
    r.word.clen = 24 + 8 * bs.length ∧ (r.word.field 8 16).toNat = bs.length ∧
    ∀ (k : Nat) (h : k < bs.length), r.word.field (24 + 8 * k) 8 = bs[k])

/-! ### CodecRegistry -/

/-- GET answers the canonical descriptor of the order its descriptor selects, which placed in the `ORD` field of a later
command selects the same order; nothing else changes (R211; the spec's decision D25). -/
def Obligations.GetAnswersTheCanonicalDescriptor : Prop :=
  ∀ (d : Desc) (s : State),
    decode ⟨8, 0#2 ++ d.toBits ++ 0#4⟩ = .ok (.get d) ∧
    ∃ r : Word32, exec (.get d) s = .next { s with responses := s.responses ++ [.res32 r] } ∧
      r = (if select d = .big then 0x00000001#32 else 0x00000000#32) ∧
      select (Desc.ofBits (r.extractLsb' 0 2)) = select d

/-! ### ByteOrderCodec -/

/-- TOINT answers the four bytes of its span combined in its order, or Bounds, and changes no byte (R110). -/
def Obligations.ToIntCombinesFourBytes : Prop :=
  ∀ (d : Desc) (off : Word32) (s : State),
    let b := fun i : Nat => (s.mem.get (off.toInt.toNat + i)).setWidth 32
    decode ⟨40, off ++ (0#2 ++ d.toBits ++ 1#4)⟩ = .ok (.toInt d off) ∧
    (0 ≤ off.toInt ∧ off.toInt + 4 ≤ s.len →
      exec (.toInt d off) s = .next { s with responses := s.responses ++ [.res32 (match select d with
        | .little => b 0 ||| b 1 <<< 8 ||| b 2 <<< 16 ||| b 3 <<< 24
        | .big => b 3 ||| b 2 <<< 8 ||| b 1 <<< 16 ||| b 0 <<< 24)] }) ∧
    (off.toInt < 0 ∨ (s.len : Int) < off.toInt + 4 →
      exec (.toInt d off) s = .next { s with responses := s.responses ++ [.fault .bounds] })

/-- FROMINT writes the four bytes of its value in its order at its offset and no other byte, or raises Bounds and writes
nothing (R111). -/
def Obligations.FromIntWritesFourBytes : Prop :=
  ∀ (d : Desc) (off v : Word32) (s : State),
    decode ⟨72, v ++ off ++ (0#2 ++ d.toBits ++ 2#4)⟩ = .ok (.fromInt d off v) ∧
    (0 ≤ off.toInt ∧ off.toInt + 4 ≤ s.len →
      ∃ m : Memory, exec (.fromInt d off v) s = .next { s with mem := m, responses := s.responses ++ [.done] } ∧
        (∀ i, i < 4 → m.get (spanStart off + i) = match select d with
          | .little => v.extractLsb' (8 * i) 8
          | .big => v.extractLsb' (8 * (3 - i)) 8) ∧
        ∀ k, (k < spanStart off ∨ spanStart off + 4 ≤ k) → m.get k = s.mem.get k) ∧
    (off.toInt < 0 ∨ (s.len : Int) < off.toInt + 4 →
      exec (.fromInt d off v) s = .next { s with responses := s.responses ++ [.fault .bounds] })

/-- TOLONG answers the eight bytes of its span combined in its order, the highest lane leftmost here, or Bounds, and
changes no byte (R112). -/
def Obligations.ToLongCombinesEightBytes : Prop :=
  ∀ (d : Desc) (off : Word32) (s : State),
    let b := fun i : Nat => s.mem.get (off.toInt.toNat + i)
    decode ⟨40, off ++ (0#2 ++ d.toBits ++ 3#4)⟩ = .ok (.toLong d off) ∧
    (0 ≤ off.toInt ∧ off.toInt + 8 ≤ s.len →
      exec (.toLong d off) s = .next { s with responses := s.responses ++ [.res64 (match select d with
        | .little => b 7 ++ b 6 ++ b 5 ++ b 4 ++ b 3 ++ b 2 ++ b 1 ++ b 0
        | .big => b 0 ++ b 1 ++ b 2 ++ b 3 ++ b 4 ++ b 5 ++ b 6 ++ b 7)] }) ∧
    (off.toInt < 0 ∨ (s.len : Int) < off.toInt + 8 →
      exec (.toLong d off) s = .next { s with responses := s.responses ++ [.fault .bounds] })

/-- TOLONGP puts `low` in bits 31:0 and `high` in bits 63:32 under `LITTLE`, the two exchanged under `BIG`, with no byte
swapped inside a half and no sign spread; no operand faults and no byte changes (R113; that the halves are taken as they stand is the spec's own reading, decision
D17). -/
def Obligations.ToLongPairPlacesTheHalves : Prop :=
  ∀ (d : Desc) (hi lo : Word32) (s : State),
    decode ⟨72, hi ++ lo ++ (0#2 ++ d.toBits ++ 4#4)⟩ = .ok (.toLongP d hi lo) ∧
    exec (.toLongP d hi lo) s = .next { s with responses := s.responses ++ [.res64 (match select d with
      | .little => hi ++ lo
      | .big => lo ++ hi)] }

/-- FROMLONG writes the eight bytes of its value in its order at its offset and no other byte, or raises Bounds and
writes nothing (R114). -/
def Obligations.FromLongWritesEightBytes : Prop :=
  ∀ (d : Desc) (off : Word32) (v : Word64) (s : State),
    decode ⟨104, v ++ off ++ (0#2 ++ d.toBits ++ 5#4)⟩ = .ok (.fromLong d off v) ∧
    (0 ≤ off.toInt ∧ off.toInt + 8 ≤ s.len →
      ∃ m : Memory, exec (.fromLong d off v) s = .next { s with mem := m, responses := s.responses ++ [.done] } ∧
        (∀ i, i < 8 → m.get (spanStart off + i) = match select d with
          | .little => v.extractLsb' (8 * i) 8
          | .big => v.extractLsb' (8 * (7 - i)) 8) ∧
        ∀ k, (k < spanStart off ∨ spanStart off + 8 ≤ k) → m.get k = s.mem.get k) ∧
    (off.toInt < 0 ∨ (s.len : Int) < off.toInt + 8 →
      exec (.fromLong d off v) s = .next { s with responses := s.responses ++ [.fault .bounds] })

/-- Round trip: a FROM command followed by the TO command of its width at the same offset in the same order returns the
value; a TO command followed by the FROM command of the result leaves every byte as it was (R115). -/
def Obligations.IntegerRoundTrips : Prop :=
  ∀ (d : Desc) (off : Word32) (s : State),
    (0 ≤ off.toInt ∧ off.toInt + 4 ≤ s.len →
      (∀ v : Word32, ∃ t u : State, exec (.fromInt d off v) s = .next t ∧ exec (.toInt d off) t = .next u ∧
        u.responses = s.responses ++ [.done, .res32 v]) ∧
      (∃ (r : Word32) (t u : State), exec (.toInt d off) s = .next t ∧ t.responses = s.responses ++ [.res32 r] ∧
        exec (.fromInt d off r) t = .next u ∧ ∀ k, u.mem.get k = s.mem.get k)) ∧
    (0 ≤ off.toInt ∧ off.toInt + 8 ≤ s.len →
      (∀ v : Word64, ∃ t u : State, exec (.fromLong d off v) s = .next t ∧ exec (.toLong d off) t = .next u ∧
        u.responses = s.responses ++ [.done, .res64 v]) ∧
      (∃ (r : Word64) (t u : State), exec (.toLong d off) s = .next t ∧ t.responses = s.responses ++ [.res64 r] ∧
        exec (.fromLong d off r) t = .next u ∧ ∀ k, u.mem.get k = s.mem.get k))

/-- Composition: TOLONGP of two halves equals TOLONG of a buffer in which FROMINT wrote `low` and, four bytes on, `high`;
and TOLONG at an offset equals TOLONGP of the two TOINT reads there, the first as `low`, all in one order (R116). -/
def Obligations.PairEqualsLongOfTwoInts : Prop :=
  ∀ (d : Desc) (p q : Word32) (s : State), 0 ≤ p.toInt ∧ p.toInt + 8 ≤ s.len → q.toInt = p.toInt + 4 →
    (∀ hi lo : Word32, ∃ (r : Word64) (t u x y : State),
      exec (.fromInt d p lo) s = .next t ∧ exec (.fromInt d q hi) t = .next u ∧ exec (.toLong d p) u = .next x ∧
      exec (.toLongP d hi lo) x = .next y ∧ y.responses = s.responses ++ [.done, .done, .res64 r, .res64 r]) ∧
    (∃ (a b : Word32) (r : Word64) (t u x y : State),
      exec (.toInt d p) s = .next t ∧ exec (.toInt d q) t = .next u ∧ exec (.toLong d p) u = .next x ∧
      exec (.toLongP d b a) x = .next y ∧ y.responses = s.responses ++ [.res32 a, .res32 b, .res64 r, .res64 r])

/-- A long read back as two ints: after FROMLONG of v, TOINT at the offset and four bytes on give the low and the high
half under `LITTLE`, the high and the low half under `BIG` (R47). -/
def Obligations.LongReadsBackAsTwoInts : Prop :=
  ∀ (d : Desc) (p q : Word32) (v : Word64) (s : State), 0 ≤ p.toInt ∧ p.toInt + 8 ≤ s.len → q.toInt = p.toInt + 4 →
    ∃ t u x : State, exec (.fromLong d p v) s = .next t ∧ exec (.toInt d p) t = .next u ∧
      exec (.toInt d q) u = .next x ∧
      x.responses = s.responses ++ (match select d with
        | .little => [.done, .res32 (v.extractLsb' 0 32), .res32 (v.extractLsb' 32 32)]
        | .big => [.done, .res32 (v.extractLsb' 32 32), .res32 (v.extractLsb' 0 32)])

/-- Divergence: the bytes a FROM command writes under `BIG` are those it writes under `LITTLE` in reverse, and for a
value whose bytes read differently backwards the two differ (R49, R117). -/
def Obligations.OrdersWriteReversedBytes : Prop :=
  ∀ (d e : Desc) (off : Word32) (s : State), select d = .little → select e = .big →
    (0 ≤ off.toInt ∧ off.toInt + 4 ≤ s.len → ∀ v : Word32,
      ∃ t u : State, exec (.fromInt d off v) s = .next t ∧ exec (.fromInt e off v) s = .next u ∧
        (∀ i, i < 4 → u.mem.get (spanStart off + i) = t.mem.get (spanStart off + (3 - i))) ∧
        ((∃ i, i < 4 ∧ v.extractLsb' (8 * i) 8 ≠ v.extractLsb' (8 * (3 - i)) 8) →
          ∃ i, i < 4 ∧ u.mem.get (spanStart off + i) ≠ t.mem.get (spanStart off + i))) ∧
    (0 ≤ off.toInt ∧ off.toInt + 8 ≤ s.len → ∀ v : Word64,
      ∃ t u : State, exec (.fromLong d off v) s = .next t ∧ exec (.fromLong e off v) s = .next u ∧
        (∀ i, i < 8 → u.mem.get (spanStart off + i) = t.mem.get (spanStart off + (7 - i))) ∧
        ((∃ i, i < 8 ∧ v.extractLsb' (8 * i) 8 ≠ v.extractLsb' (8 * (7 - i)) 8) →
          ∃ i, i < 8 ∧ u.mem.get (spanStart off + i) ≠ t.mem.get (spanStart off + i)))

/-- Reading a span in the other order than the one written returns the value with its bytes reversed (R50). -/
def Obligations.CrossOrderReadReversesTheBytes : Prop :=
  ∀ (d e : Desc) (off : Word32) (s : State), select d ≠ select e →
    (0 ≤ off.toInt ∧ off.toInt + 4 ≤ s.len → ∀ v : Word32,
      ∃ t u : State, exec (.fromInt d off v) s = .next t ∧ exec (.toInt e off) t = .next u ∧
        u.responses = s.responses ++ [.done, .res32
          (v.extractLsb' 0 8 ++ v.extractLsb' 8 8 ++ v.extractLsb' 16 8 ++ v.extractLsb' 24 8)]) ∧
    (0 ≤ off.toInt ∧ off.toInt + 8 ≤ s.len → ∀ v : Word64,
      ∃ t u : State, exec (.fromLong d off v) s = .next t ∧ exec (.toLong e off) t = .next u ∧
        u.responses = s.responses ++ [.done, .res64
          (v.extractLsb' 0 8 ++ v.extractLsb' 8 8 ++ v.extractLsb' 16 8 ++ v.extractLsb' 24 8 ++
            v.extractLsb' 32 8 ++ v.extractLsb' 40 8 ++ v.extractLsb' 48 8 ++ v.extractLsb' 56 8)])

/-! ### NumericBridge -/

/-- TOFLOAT answers the raw pattern of the four bytes of its span in its order, no bit changed, or Bounds (R140). -/
def Obligations.ToFloatAnswersTheRawPattern : Prop :=
  ∀ (d : Desc) (off : Word32) (s : State),
    let b := fun i : Nat => s.mem.get (off.toInt.toNat + i)
    decode ⟨40, off ++ (0#2 ++ d.toBits ++ 6#4)⟩ = .ok (.toFloat d off) ∧
    (0 ≤ off.toInt ∧ off.toInt + 4 ≤ s.len →
      exec (.toFloat d off) s = .next { s with responses := s.responses ++ [.res32 (match select d with
        | .little => b 3 ++ b 2 ++ b 1 ++ b 0
        | .big => b 0 ++ b 1 ++ b 2 ++ b 3)] }) ∧
    (off.toInt < 0 ∨ (s.len : Int) < off.toInt + 4 →
      exec (.toFloat d off) s = .next { s with responses := s.responses ++ [.fault .bounds] })

/-- FROMFLOAT writes the four bytes of the raw pattern in its order and no other byte, or raises Bounds and writes
nothing (R141). -/
def Obligations.FromFloatWritesTheRawPattern : Prop :=
  ∀ (d : Desc) (off v : Word32) (s : State),
    decode ⟨72, v ++ off ++ (0#2 ++ d.toBits ++ 7#4)⟩ = .ok (.fromFloat d off v) ∧
    (0 ≤ off.toInt ∧ off.toInt + 4 ≤ s.len →
      ∃ m : Memory, exec (.fromFloat d off v) s = .next { s with mem := m, responses := s.responses ++ [.done] } ∧
        (∀ i, i < 4 → m.get (spanStart off + i) = match select d with
          | .little => v.extractLsb' (8 * i) 8
          | .big => v.extractLsb' (8 * (3 - i)) 8) ∧
        ∀ k, (k < spanStart off ∨ spanStart off + 4 ≤ k) → m.get k = s.mem.get k) ∧
    (off.toInt < 0 ∨ (s.len : Int) < off.toInt + 4 →
      exec (.fromFloat d off v) s = .next { s with responses := s.responses ++ [.fault .bounds] })

/-- TODOUBLE answers the raw pattern of the eight bytes of its span in its order, no bit changed, or Bounds (R142). -/
def Obligations.ToDoubleAnswersTheRawPattern : Prop :=
  ∀ (d : Desc) (off : Word32) (s : State),
    let b := fun i : Nat => s.mem.get (off.toInt.toNat + i)
    decode ⟨40, off ++ (0#2 ++ d.toBits ++ 8#4)⟩ = .ok (.toDouble d off) ∧
    (0 ≤ off.toInt ∧ off.toInt + 8 ≤ s.len →
      exec (.toDouble d off) s = .next { s with responses := s.responses ++ [.res64 (match select d with
        | .little => b 7 ++ b 6 ++ b 5 ++ b 4 ++ b 3 ++ b 2 ++ b 1 ++ b 0
        | .big => b 0 ++ b 1 ++ b 2 ++ b 3 ++ b 4 ++ b 5 ++ b 6 ++ b 7)] }) ∧
    (off.toInt < 0 ∨ (s.len : Int) < off.toInt + 8 →
      exec (.toDouble d off) s = .next { s with responses := s.responses ++ [.fault .bounds] })

/-- FROMDOUBLE writes the eight bytes of the raw pattern in its order and no other byte, or raises Bounds and writes
nothing (R143). -/
def Obligations.FromDoubleWritesTheRawPattern : Prop :=
  ∀ (d : Desc) (off : Word32) (v : Word64) (s : State),
    decode ⟨104, v ++ off ++ (0#2 ++ d.toBits ++ 9#4)⟩ = .ok (.fromDouble d off v) ∧
    (0 ≤ off.toInt ∧ off.toInt + 8 ≤ s.len →
      ∃ m : Memory, exec (.fromDouble d off v) s = .next { s with mem := m, responses := s.responses ++ [.done] } ∧
        (∀ i, i < 8 → m.get (spanStart off + i) = match select d with
          | .little => v.extractLsb' (8 * i) 8
          | .big => v.extractLsb' (8 * (7 - i)) 8) ∧
        ∀ k, (k < spanStart off ∨ spanStart off + 8 ≤ k) → m.get k = s.mem.get k) ∧
    (off.toInt < 0 ∨ (s.len : Int) < off.toInt + 8 →
      exec (.fromDouble d off v) s = .next { s with responses := s.responses ++ [.fault .bounds] })

/-- Every floating pattern, each NaN and negative zero included, comes back bit for bit from the TO command of its width
at the same offset in the same order (R144, R146). -/
def Obligations.FloatPatternsRoundTrip : Prop :=
  ∀ (d : Desc) (off : Word32) (s : State),
    (0 ≤ off.toInt ∧ off.toInt + 4 ≤ s.len → ∀ p : Word32,
      ∃ t u : State, exec (.fromFloat d off p) s = .next t ∧ exec (.toFloat d off) t = .next u ∧
        u.responses = s.responses ++ [.done, .res32 p]) ∧
    (0 ≤ off.toInt ∧ off.toInt + 8 ≤ s.len → ∀ p : Word64,
      ∃ t u : State, exec (.fromDouble d off p) s = .next t ∧ exec (.toDouble d off) t = .next u ∧
        u.responses = s.responses ++ [.done, .res64 p])

/-- The bridge is the integer family: same responses, same bytes, same faults (R147). -/
def Obligations.BridgeEqualsTheIntegerFamily : Prop :=
  ∀ (d : Desc) (off : Word32) (s : State),
    exec (.toFloat d off) s = exec (.toInt d off) s ∧ exec (.toDouble d off) s = exec (.toLong d off) s ∧
    (∀ v, exec (.fromFloat d off v) s = exec (.fromInt d off v) s) ∧
    ∀ v, exec (.fromDouble d off v) s = exec (.fromLong d off v) s

/-! ### BitReversal -/

/-- REVERSE of a count up to 64 answers the lowest `N` bits reversed and right-aligned with zeros above; a larger count
is answered Range; no byte changes (R160). -/
def Obligations.ReverseReversesTheLowestBits : Prop :=
  ∀ (d : Desc) (n : Byte) (v : Word64) (s : State),
    decode ⟨80, v ++ n ++ (0#2 ++ d.toBits ++ 13#4)⟩ = .ok (.reverse d n v) ∧
    (n.toNat ≤ 64 → ∃ r : Word64, exec (.reverse d n v) s = .next { s with responses := s.responses ++ [.res64 r] } ∧
      (∀ i, i < n.toNat → r.getLsbD i = v.getLsbD (n.toNat - 1 - i)) ∧ ∀ k, n.toNat ≤ k → r.getLsbD k = false) ∧
    (64 < n.toNat → exec (.reverse d n v) s = .next { s with responses := s.responses ++ [.fault .range] })

/-- REVERSELEFT of a count up to 64 answers the highest `N` bits reversed and left-aligned with zeros below; a larger
count is answered Range; no byte changes (R161). -/
def Obligations.ReverseLeftReversesTheHighestBits : Prop :=
  ∀ (d : Desc) (n : Byte) (v : Word64) (s : State),
    decode ⟨80, v ++ n ++ (0#2 ++ d.toBits ++ 14#4)⟩ = .ok (.reverseLeft d n v) ∧
    (n.toNat ≤ 64 →
      ∃ r : Word64, exec (.reverseLeft d n v) s = .next { s with responses := s.responses ++ [.res64 r] } ∧
        (∀ i, i < n.toNat → r.getLsbD (63 - i) = v.getLsbD (64 - n.toNat + i)) ∧
        ∀ k, k < 64 - n.toNat → r.getLsbD k = false) ∧
    (64 < n.toNat → exec (.reverseLeft d n v) s = .next { s with responses := s.responses ++ [.fault .range] })

/-- Count 0: both reversals succeed with 0 for every register (R162, the spec's decision D10). -/
def Obligations.ReversalOfNoBitsIsZero : Prop :=
  ∀ (d : Desc) (v : Word64) (s : State),
    exec (.reverse d 0#8 v) s = .next { s with responses := s.responses ++ [.res64 0#64] } ∧
    exec (.reverseLeft d 0#8 v) s = .next { s with responses := s.responses ++ [.res64 0#64] }

/-- The short-circuit is not observable: REVERSE answers what GH's loop with its early exit computes, for every register
and every count up to 64 (R163). -/
def Obligations.ReverseShortCircuitIsUnobservable : Prop :=
  ∀ (d : Desc) (n : Byte) (v : Word64) (s : State), n.toNat ≤ 64 →
    exec (.reverse d n v) s = .next { s with responses := s.responses ++ [.res64 (reverseIterative v n.toNat)] }

/-- Reversal twice: REVERSE gives the register back with the bits at `N` and above cleared, REVERSELEFT with the bits
below 64 - `N` cleared; so both are involutions on values that fit (R164). -/
def Obligations.ReversalTwiceIsTheMaskedValue : Prop :=
  ∀ (d : Desc) (n : Byte) (v : Word64) (s : State), n.toNat ≤ 64 →
    (∃ r w : Word64, exec (.reverse d n v) s = .next { s with responses := s.responses ++ [.res64 r] } ∧
      exec (.reverse d n r) s = .next { s with responses := s.responses ++ [.res64 w] } ∧
      (∀ k, w.getLsbD k = (decide (k < n.toNat) && v.getLsbD k)) ∧
      ((∀ k, n.toNat ≤ k → v.getLsbD k = false) → w = v)) ∧
    (∃ r w : Word64, exec (.reverseLeft d n v) s = .next { s with responses := s.responses ++ [.res64 r] } ∧
      exec (.reverseLeft d n r) s = .next { s with responses := s.responses ++ [.res64 w] } ∧
      (∀ k, w.getLsbD k = (decide (64 - n.toNat ≤ k) && v.getLsbD k)) ∧
      ((∀ k, k < 64 - n.toNat → v.getLsbD k = false) → w = v))

/-- The two reversals: REVERSELEFT is the top bits moved down, reversed by REVERSE and moved back up; and the boundary
values of REVERSE (R164). -/
def Obligations.ReverseLeftIsShiftedReverse : Prop :=
  ∀ (d : Desc) (n : Byte) (s : State),
    (1 ≤ n.toNat → n.toNat ≤ 64 → ∀ v : Word64, ∃ r : Word64,
      exec (.reverse d n (v >>> (64 - n.toNat))) s = .next { s with responses := s.responses ++ [.res64 r] } ∧
      exec (.reverseLeft d n v) s =
        .next { s with responses := s.responses ++ [.res64 (r <<< (64 - n.toNat))] }) ∧
    (n.toNat ≤ 64 → exec (.reverse d n 0#64) s = .next { s with responses := s.responses ++ [.res64 0#64] }) ∧
    exec (.reverse d 1#8 1#64) s = .next { s with responses := s.responses ++ [.res64 1#64] } ∧
    exec (.reverse d 64#8 1#64) s = .next { s with responses := s.responses ++ [.res64 0x8000000000000000#64] }

/-! ### BitStringCodec -/

/-- TOBITSTR of a count up to 64 answers the top `N` bits as characters, bit 63 first; a larger count is answered Range;
no byte changes (R181). -/
def Obligations.ToBitStringReportsTheTopBits : Prop :=
  ∀ (d : Desc) (n : Byte) (v : Word64) (s : State),
    decode ⟨80, v ++ n ++ (0#2 ++ d.toBits ++ 10#4)⟩ = .ok (.toBitStr d n v) ∧
    (n.toNat ≤ 64 → ∃ cs : List Byte, exec (.toBitStr d n v) s = .next { s with responses := s.responses ++ [.str cs] } ∧
      cs.length = n.toNat ∧ ∀ (k : Nat) (h : k < cs.length), cs[k] = if v.getLsbD (63 - k) then 0x31#8 else 0x30#8) ∧
    (64 < n.toNat → exec (.toBitStr d n v) s = .next { s with responses := s.responses ++ [.fault .range] })

/-- TOLASTBITSTR of a count up to 64 answers the lowest `N` bits as characters, bit `N` - 1 first; a larger count is
answered Range; no byte changes (R182). -/
def Obligations.ToLastBitStringReportsTheLowestBits : Prop :=
  ∀ (d : Desc) (n : Byte) (v : Word64) (s : State),
    decode ⟨80, v ++ n ++ (0#2 ++ d.toBits ++ 11#4)⟩ = .ok (.toLastBitStr d n v) ∧
    (n.toNat ≤ 64 →
      ∃ cs : List Byte, exec (.toLastBitStr d n v) s = .next { s with responses := s.responses ++ [.str cs] } ∧
        cs.length = n.toNat ∧
        ∀ (k : Nat) (h : k < cs.length), cs[k] = if v.getLsbD (n.toNat - 1 - k) then 0x31#8 else 0x30#8) ∧
    (64 < n.toNat → exec (.toLastBitStr d n v) s = .next { s with responses := s.responses ++ [.fault .range] })

/-- Count 0 gives the empty string in both renderers and a count above 64 is answered Range (R188). -/
def Obligations.RenderersAtCountZeroAndAbove64 : Prop :=
  ∀ (d : Desc) (v : Word64) (s : State),
    exec (.toBitStr d 0#8 v) s = .next { s with responses := s.responses ++ [.str []] } ∧
    exec (.toLastBitStr d 0#8 v) s = .next { s with responses := s.responses ++ [.str []] } ∧
    ∀ n : Byte, 64 < n.toNat →
      exec (.toBitStr d n v) s = .next { s with responses := s.responses ++ [.fault .range] } ∧
      exec (.toLastBitStr d n v) s = .next { s with responses := s.responses ++ [.fault .range] }

/-- BITSTR2LONG packs a string of at most 64 characters from bit 63 down with zeros below; a longer one is answered
InvalidInput whatever its characters, else a character outside the alphabet BadChar; no byte changes (R183, R185). -/
def Obligations.BitStringPacksFromTheTop : Prop :=
  ∀ (c : Bits) (d : Desc) (cs : List Byte) (s : State),
    (isFormatS c d 15#4 cs → decode c = .ok (.bitStr2Long d cs)) ∧
    (64 < cs.length → exec (.bitStr2Long d cs) s = .next { s with responses := s.responses ++ [.fault .invalidInput] }) ∧
    (cs.length ≤ 64 → (∃ x ∈ cs, ¬ isCharCode x) →
      exec (.bitStr2Long d cs) s = .next { s with responses := s.responses ++ [.fault .badChar] }) ∧
    (cs.length ≤ 64 → (∀ x ∈ cs, isCharCode x) →
      ∃ r : Word64, exec (.bitStr2Long d cs) s = .next { s with responses := s.responses ++ [.res64 r] } ∧
        (∀ (k : Nat) (h : k < cs.length), r.getLsbD (63 - k) = decide (cs[k] = 0x31#8)) ∧
        ∀ j, j < 64 - cs.length → r.getLsbD j = false)

/-- FROMBITSTR makes one byte of each eight characters, the first in bit 7, the last group padded on the right with '0',
in string order under `BIG` and reversed under `LITTLE`; a character outside the alphabet is answered BadChar; no length
faults and no byte of the buffer changes (R186; the exact bytes rest on the spec's decision D14). -/
def Obligations.FromBitStringPacksGroupsOfEight : Prop :=
  ∀ (c : Bits) (d : Desc) (cs : List Byte) (s : State),
    (isFormatS c d 12#4 cs → decode c = .ok (.fromBitStr d cs)) ∧
    ((∃ x ∈ cs, ¬ isCharCode x) →
      exec (.fromBitStr d cs) s = .next { s with responses := s.responses ++ [.fault .badChar] }) ∧
    ((∀ x ∈ cs, isCharCode x) →
      ∃ bs : List Byte, exec (.fromBitStr d cs) s = .next { s with responses := s.responses ++ [.bytes bs] } ∧
        bs.length = (cs.length + 7) / 8 ∧
        ∀ g j b, g < bs.length → j < 8 →
          bs[match select d with | .big => g | .little => bs.length - 1 - g]? = some b →
          b.getLsbD (7 - j) = decide (cs[8 * g + j]? = some 0x31#8))

/-- The bytes FROMBITSTR answers render back, in its order, to the string followed by the padding '0's (R184, R186; the
convention is the spec's decision D14). -/
def Obligations.FromBitStringRendersBack : Prop :=
  ∀ (d : Desc) (cs : List Byte) (s : State), (∀ x ∈ cs, isCharCode x) →
    ∃ bs : List Byte, exec (.fromBitStr d cs) s = .next { s with responses := s.responses ++ [.bytes bs] } ∧
      render (select d) bs = cs ++ List.replicate (8 * ((cs.length + 7) / 8) - cs.length) 0x30#8

/-- The two orders' results are each other's reverse (R186; decision D14). -/
def Obligations.FromBitStringOrdersAreReversed : Prop :=
  ∀ (d e : Desc) (cs : List Byte) (s : State), select d = .big → select e = .little → (∀ x ∈ cs, isCharCode x) →
    ∃ bs : List Byte, exec (.fromBitStr d cs) s = .next { s with responses := s.responses ++ [.bytes bs] } ∧
      exec (.fromBitStr e cs) s = .next { s with responses := s.responses ++ [.bytes bs.reverse] }

/-- Strings and registers: 64 characters round-trip the register; `n` characters give it back with its low 64 - `n` bits
cleared; and a string of at most 64 characters comes back from the register it packs (R187 (a), (b), (c)). -/
def Obligations.BitStringRoundTrips : Prop :=
  ∀ (d : Desc) (s : State),
    (∀ v : Word64, ∃ cs : List Byte,
      exec (.toBitStr d 64#8 v) s = .next { s with responses := s.responses ++ [.str cs] } ∧
      cs.length = 64 ∧ (∀ x ∈ cs, isCharCode x) ∧
      exec (.bitStr2Long d cs) s = .next { s with responses := s.responses ++ [.res64 v] }) ∧
    (∀ (n : Byte) (v : Word64), n.toNat ≤ 64 → ∃ (cs : List Byte) (r : Word64),
      exec (.toBitStr d n v) s = .next { s with responses := s.responses ++ [.str cs] } ∧
      exec (.bitStr2Long d cs) s = .next { s with responses := s.responses ++ [.res64 r] } ∧
      ∀ k, r.getLsbD k = (decide (64 - n.toNat ≤ k) && v.getLsbD k)) ∧
    (∀ cs : List Byte, cs.length ≤ 64 → (∀ x ∈ cs, isCharCode x) → ∃ r : Word64,
      exec (.bitStr2Long d cs) s = .next { s with responses := s.responses ++ [.res64 r] } ∧
      exec (.toBitStr d (BitVec.ofNat 8 cs.length) r) s = .next { s with responses := s.responses ++ [.str cs] })

/-- The renderers and the reversals: the lowest bits render as the register moved up renders at its top, and reversing
the bits reverses the string (R187 (d), (e)). -/
def Obligations.ReversalReversesTheString : Prop :=
  ∀ (d : Desc) (n : Byte) (v : Word64) (s : State), 1 ≤ n.toNat → n.toNat ≤ 64 →
    exec (.toLastBitStr d n v) s = exec (.toBitStr d n (v <<< (64 - n.toNat))) s ∧
    (∃ (r : Word64) (cs : List Byte),
      exec (.reverseLeft d n v) s = .next { s with responses := s.responses ++ [.res64 r] } ∧
      exec (.toBitStr d n v) s = .next { s with responses := s.responses ++ [.str cs] } ∧
      exec (.toBitStr d n r) s = .next { s with responses := s.responses ++ [.str cs.reverse] }) ∧
    (∃ (r : Word64) (cs : List Byte),
      exec (.reverse d n v) s = .next { s with responses := s.responses ++ [.res64 r] } ∧
      exec (.toLastBitStr d n v) s = .next { s with responses := s.responses ++ [.str cs] } ∧
      exec (.toLastBitStr d n r) s = .next { s with responses := s.responses ++ [.str cs.reverse] })

/-- The families joined: BITSTR2LONG of a string equals TOLONG of the 8-byte buffer that holds FROMBITSTR's bytes of it
as its most significant ones, zeros elsewhere, in one order (R187 (f); decision D14). -/
def Obligations.StringBytesReadAsThePackedLong : Prop :=
  ∀ (d : Desc) (cs : List Byte) (s t : State), cs.length ≤ 64 → (∀ x ∈ cs, isCharCode x) →
    ∃ (r : Word64) (bs : List Byte),
      exec (.bitStr2Long d cs) s = .next { s with responses := s.responses ++ [.res64 r] } ∧
      exec (.fromBitStr d cs) s = .next { s with responses := s.responses ++ [.bytes bs] } ∧
      (t.len = 8 → t.bytes = (match select d with
          | .big => bs ++ List.replicate (8 - bs.length) 0#8
          | .little => List.replicate (8 - bs.length) 0#8 ++ bs) →
        exec (.toLong d 0#32) t = .next { t with responses := t.responses ++ [.res64 r] })

/-- The five order-independent commands give the same result for every descriptor (R3, R88). -/
def Obligations.BitCommandsIgnoreTheDescriptor : Prop :=
  ∀ (d e : Desc) (n : Byte) (v : Word64) (cs : List Byte) (s : State),
    exec (.toBitStr d n v) s = exec (.toBitStr e n v) s ∧
    exec (.toLastBitStr d n v) s = exec (.toLastBitStr e n v) s ∧
    exec (.reverse d n v) s = exec (.reverse e n v) s ∧
    exec (.reverseLeft d n v) s = exec (.reverseLeft e n v) s ∧
    exec (.bitStr2Long d cs) s = exec (.bitStr2Long e cs) s
end

