-- ==== Sys2Proof/Laws/State.lean ====
section
/-! SUPPORT. One lemma per field per update of the state: answering, raising, binding, the events. All hold by rfl, so
no later proof unfolds a record update. -/

namespace Sys2Proof.Machine

@[simp] theorem respond_len (r : Response) (s : State) : (respond r s).len = s.len := rfl
@[simp] theorem respond_mem (r : Response) (s : State) : (respond r s).mem = s.mem := rfl
@[simp] theorem respond_pending (r : Response) (s : State) : (respond r s).pending = s.pending := rfl
@[simp] theorem respond_responses (r : Response) (s : State) : (respond r s).responses = s.responses ++ [r] := rfl

theorem respond_eq (r : Response) (s : State) : respond r s = { s with responses := s.responses ++ [r] } := rfl

@[simp] theorem raise_len (f : FaultCode) (s : State) : (raise f s).len = s.len := rfl
@[simp] theorem raise_mem (f : FaultCode) (s : State) : (raise f s).mem = s.mem := rfl
@[simp] theorem raise_pending (f : FaultCode) (s : State) : (raise f s).pending = s.pending := rfl
@[simp] theorem raise_responses (f : FaultCode) (s : State) : (raise f s).responses = s.responses ++ [.fault f] := rfl

theorem raise_eq (f : FaultCode) (s : State) : raise f s = { s with responses := s.responses ++ [.fault f] } := rfl

@[simp] theorem bindBuffer_len (bs : List Byte) (s : State) : (bindBuffer bs s).len = bs.length := rfl
@[simp] theorem bindBuffer_mem (bs : List Byte) (s : State) : (bindBuffer bs s).mem = Memory.ofBytes bs := rfl
@[simp] theorem bindBuffer_pending (bs : List Byte) (s : State) : (bindBuffer bs s).pending = s.pending := rfl
@[simp] theorem bindBuffer_responses (bs : List Byte) (s : State) : (bindBuffer bs s).responses = s.responses := rfl

@[simp] theorem withFetchWord_len (s : State) (n w : Nat) : (s.withFetchWord n w).len = s.len := rfl
@[simp] theorem withFetchWord_mem (s : State) (n w : Nat) : (s.withFetchWord n w).mem = s.mem := rfl
@[simp] theorem withFetchWord_responses (s : State) (n w : Nat) : (s.withFetchWord n w).responses = s.responses := rfl
@[simp] theorem withFetchWord_pending (s : State) (n w : Nat) :
    (s.withFetchWord n w).pending = .command (tableWord n w) :: s.pending := rfl

end Sys2Proof.Machine
end

