-- ==== Sys2Proof/Laws/Operands.lean ====
section
/-! SUPPORT. The laws of the operand forms: the bounds check in the spec's words, the byte placement and its inverse,
the bits of a built vector, characters and their bits. -/

namespace Sys2Proof.Machine

/-! ### Offsets -/

theorem inBounds_iff (off : Word32) (w len : Nat) :
    inBounds off w len = true ↔ 0 ≤ off.toInt ∧ off.toInt + (w : Int) ≤ (len : Int) := by
  simp [inBounds]

theorem inBounds_eq_false_iff (off : Word32) (w len : Nat) :
    inBounds off w len = false ↔ off.toInt < 0 ∨ (len : Int) < off.toInt + (w : Int) := by
  simp only [inBounds, decide_eq_false_iff_not]
  omega

/-- The span of an admitted access lies in the buffer. -/
theorem spanStart_add_le {off : Word32} {w len : Nat} (h : inBounds off w len = true) : spanStart off + w ≤ len := by
  rw [inBounds_iff] at h
  unfold spanStart
  omega

/-! ### Byte placement -/

theorem lane_lt (o : Order) {w i : Nat} (h : i < w) : lane o w i < w := by
  cases o <;> simp only [lane] <;> omega

/-- A place's lane is its own inverse. -/
theorem lane_lane (o : Order) {w i : Nat} (h : i < w) : lane o w (lane o w i) = i := by
  cases o <;> simp only [lane]; omega

@[simp] theorem length_place (o : Order) (w : Nat) {W : Nat} (v : BitVec W) : (place o w v).length = w := by
  simp [place]

@[simp] theorem getElem_place (o : Order) (w : Nat) {W : Nat} (v : BitVec W) (i : Nat) (h : i < (place o w v).length) :
    (place o w v)[i] = v.extractLsb' (8 * lane o w i) 8 := by
  simp [place]

/-- The bits of a fold of lanes: bit `k` is set exactly where some byte of the list has it in its lane. -/
theorem getLsbD_foldl_lanes {W : Nat} (f : Nat → Nat) (l : List (Byte × Nat)) (r : BitVec W) (k : Nat) (hk : k < W) :
    (l.foldl (fun (r : BitVec W) (p : Byte × Nat) => r ||| (p.1.setWidth W <<< (8 * f p.2))) r).getLsbD k =
      (r.getLsbD k || l.any fun p => decide (8 * f p.2 ≤ k) && p.1.getLsbD (k - 8 * f p.2)) := by
  induction l generalizing r with
  | nil => simp
  | cons p l ih =>
    rw [List.foldl_cons, ih, List.any_cons, ← Bool.or_assoc]
    congr 1
    rw [BitVec.getLsbD_or, BitVec.getLsbD_shiftLeft, BitVec.getLsbD_setWidth]
    by_cases h : 8 * f p.2 ≤ k
    · have : k - 8 * f p.2 < W := by omega
      simp [hk, h, this, Nat.not_lt.2 h]
    · simp [h, Nat.lt_of_not_le h]

/-- Bit `k` of a combined value is bit `k mod 8` of the byte at the place of lane `k / 8` (R42, R43). -/
theorem getLsbD_combine (W : Nat) (o : Order) (bs : List Byte) (k : Nat) (hk : k < W) (hb : k / 8 < bs.length) :
    (combine W o bs).getLsbD k = (bs[lane o bs.length (k / 8)]'(lane_lt o hb)).getLsbD (k % 8) := by
  unfold combine
  rw [getLsbD_foldl_lanes (fun i => lane o bs.length i) _ _ k hk]
  simp only [BitVec.getLsbD_zero, Bool.false_or]
  rw [Bool.eq_iff_iff, List.any_eq_true]
  constructor
  · rintro ⟨⟨b, i⟩, hmem, hp⟩
    have hmem := List.mem_zipIdx hmem
    simp only [Bool.and_eq_true, decide_eq_true_eq] at hp
    obtain ⟨hle, hbit⟩ := hp
    have hlt : k - 8 * lane o bs.length i < 8 := by
      by_contra hge
      rw [BitVec.getLsbD_of_ge _ _ (by omega)] at hbit
      simp at hbit
    have hi : i < bs.length := by omega
    have hl : lane o bs.length i = k / 8 := by omega
    have hi' : i = lane o bs.length (k / 8) := by rw [← hl, lane_lane o hi]
    have hm : k - 8 * lane o bs.length i = k % 8 := by omega
    rw [hm] at hbit
    have hbi : b = bs[i]'hi := by simpa using hmem.2.2
    subst hi'
    rw [← hbi]
    exact hbit
  · intro hbit
    refine ⟨(bs[lane o bs.length (k / 8)]'(lane_lt o hb), lane o bs.length (k / 8)), ?_, ?_⟩
    · rw [List.mem_zipIdx_iff_getElem?]
      simp
    · rw [lane_lane o hb]
      simp only [Bool.and_eq_true, decide_eq_true_eq]
      refine ⟨by omega, ?_⟩
      rw [show k - 8 * (k / 8) = k % 8 by omega]
      exact hbit

/-- Combining the bytes a value is placed in gives the value back (R115). -/
theorem combine_place (o : Order) (w : Nat) {W : Nat} (v : BitVec W) (h : W = 8 * w) : combine W o (place o w v) = v := by
  apply BitVec.eq_of_getLsbD_eq
  intro k hk
  have hb : k / 8 < (place o w v).length := by simp; omega
  rw [getLsbD_combine W o _ k hk hb]
  simp only [length_place, getElem_place, BitVec.getLsbD_extractLsb']
  rw [lane_lane o (by omega), show 8 * (k / 8) + k % 8 = k by omega]
  simp [Nat.mod_lt]

/-- Placing the value a span combines to gives the span back (R115). -/
theorem place_combine (W : Nat) (o : Order) (bs : List Byte) (h : W = 8 * bs.length) :
    place o bs.length (combine W o bs) = bs := by
  apply List.ext_getElem (by simp)
  intro i h1 h2
  apply BitVec.eq_of_getLsbD_eq
  intro k hk
  have hl := lane_lt o h2
  simp only [getElem_place, BitVec.getLsbD_extractLsb', hk, decide_true, Bool.true_and]
  rw [getLsbD_combine W o bs _ (by omega) (by omega)]
  simp only [show (8 * lane o bs.length i + k) / 8 = lane o bs.length i by omega,
    show (8 * lane o bs.length i + k) % 8 = k by omega, lane_lane o h2]

/-! ### Built vectors -/

/-- Bit `k` of a built vector. -/
@[simp] theorem getLsbD_ofBits (W : Nat) (f : Nat → Bool) (k : Nat) :
    (ofBits W f).getLsbD k = (decide (k < W) && f k) := by
  induction W with
  | zero => simp [ofBits]
  | succ W ih =>
    rw [ofBits, BitVec.getLsbD_cons, ih]
    by_cases h : k = W
    · simp [h]
    · by_cases h' : k < W
      · simp [h, h', Nat.lt_succ_of_lt h']
      · simp [h, h', show ¬ k < W + 1 by omega]

/-! ### Characters -/

@[simp] theorem bit_chr (b : Bool) : bit (chr b) = b := by cases b <;> rfl
@[simp] theorem isBitChar_chr (b : Bool) : isBitChar (chr b) = true := by cases b <;> rfl

theorem chr_eq (b : Bool) : chr b = if b then 0x31#8 else 0x30#8 := rfl

theorem isBitChar_iff (c : Byte) : isBitChar c = true ↔ c = 0x30#8 ∨ c = 0x31#8 := by
  simp [isBitChar, Config.charZero, Config.charOne]

theorem bit_eq (c : Byte) : bit c = decide (c = 0x31#8) := rfl

theorem chr_bit {c : Byte} (h : isBitChar c = true) : chr (bit c) = c := by
  rcases (isBitChar_iff c).1 h with rfl | rfl <;> rfl

theorem bitAt_of_lt {cs : List Byte} {k : Nat} (h : k < cs.length) : bitAt cs k = bit cs[k] := by
  simp [bitAt, h]

theorem bitAt_of_ge {cs : List Byte} {k : Nat} (h : cs.length ≤ k) : bitAt cs k = false := by
  rw [bitAt, List.getD_eq_default _ _ h]; rfl

/-- A value whose lanes are a span's bytes is what the span combines to. -/
theorem combine_eq {W : Nat} {o : Order} {bs : List Byte} {x : BitVec W} (hW : W = 8 * bs.length)
    (h : ∀ i (hi : i < bs.length), ∀ j, j < 8 →
      x.getLsbD (8 * i + j) = (bs[lane o bs.length i]'(lane_lt o hi)).getLsbD j) : combine W o bs = x := by
  apply BitVec.eq_of_getLsbD_eq
  intro k hk
  rw [getLsbD_combine W o bs k hk (by omega), ← h (k / 8) (by omega) (k % 8) (by omega),
    show 8 * (k / 8) + k % 8 = k by omega]

end Sys2Proof.Machine
end

