-- ==== Sys2Proof/Laws/Bits.lean ====
section
/-! SUPPORT. The laws of the bit-level results: every bit of a reversal, every character of a rendering, every bit of a
packed string and of a string's bytes. -/

namespace Sys2Proof.Machine

theorem getLsbD_reverseLow (v : Word64) (n k : Nat) :
    (reverseLow v n).getLsbD k = (decide (k < 64) && (decide (k < n) && v.getLsbD (n - 1 - k))) := by
  simp [reverseLow]

theorem getLsbD_reverseHigh (v : Word64) (n k : Nat) :
    (reverseHigh v n).getLsbD k = (decide (k < 64) && (decide (63 - k < n) && v.getLsbD (64 - n + (63 - k)))) := by
  simp [reverseHigh]

@[simp] theorem length_topBitString (v : Word64) (n : Nat) : (topBitString v n).length = n := by simp [topBitString]

@[simp] theorem getElem_topBitString (v : Word64) (n k : Nat) (h : k < (topBitString v n).length) :
    (topBitString v n)[k] = chr (v.getLsbD (63 - k)) := by simp [topBitString]

@[simp] theorem length_lastBitString (v : Word64) (n : Nat) : (lastBitString v n).length = n := by simp [lastBitString]

@[simp] theorem getElem_lastBitString (v : Word64) (n k : Nat) (h : k < (lastBitString v n).length) :
    (lastBitString v n)[k] = chr (v.getLsbD (n - 1 - k)) := by simp [lastBitString]

theorem getLsbD_packString (cs : List Byte) (j : Nat) :
    (packString cs).getLsbD j = (decide (j < 64) && bitAt cs (63 - j)) := by simp [packString]

theorem getLsbD_groupByte (cs : List Byte) (g j : Nat) :
    (groupByte cs g).getLsbD j = (decide (j < 8) && bitAt cs (8 * g + (7 - j))) := by simp [groupByte]

@[simp] theorem length_stringBytes (o : Order) (cs : List Byte) : (stringBytes o cs).length = byteCount cs := by
  simp [stringBytes]

/-- The check of the two format-S commands, in the terms of the statements. -/
theorem all_isBitChar_iff (cs : List Byte) : cs.all isBitChar = true ↔ ∀ x ∈ cs, isCharCode x := by
  simp only [List.all_eq_true, isBitChar_iff, isCharCode]

theorem all_isBitChar_eq_false_iff (cs : List Byte) : cs.all isBitChar = false ↔ ∃ x ∈ cs, ¬ isCharCode x := by
  rw [← not_iff_not, Bool.not_eq_false, all_isBitChar_iff]
  simp

end Sys2Proof.Machine
end

