-- ==== Sys2Proof/Laws/Decode.lean ====
section
/-! SUPPORT. The laws of the word formats: equality of bit vectors of any length, fields of a concatenation, header
fields, and the bytes of a counted word. -/

namespace Sys2Proof

/-- Two bit vectors of any length are equal when their lengths and all their bits are. -/
theorem Bits.ext_getLsbD {c c' : Bits} (hlen : c.clen = c'.clen)
    (hbit : ∀ k, k < c.clen → c.bits.getLsbD k = c'.bits.getLsbD k) : c = c' := by
  obtain ⟨n, x⟩ := c
  obtain ⟨n', x'⟩ := c'
  subst hlen
  rw [BitVec.eq_of_getLsbD_eq (x := x) (y := x') hbit]

theorem Bits.getLsbD_field (c : Bits) (lo w k : Nat) :
    (c.field lo w).getLsbD k = (decide (k < w) && c.bits.getLsbD (lo + k)) := by
  simp [Bits.field]

/-- A field of the low part of a concatenation. -/
theorem Bits.field_append_low {n m : Nat} (x : BitVec n) (y : BitVec m) {lo w : Nat} (h : lo + w ≤ m) :
    Bits.field ⟨n + m, x ++ y⟩ lo w = Bits.field ⟨m, y⟩ lo w := by
  apply BitVec.eq_of_getLsbD_eq
  intro k hk
  rw [Bits.getLsbD_field, Bits.getLsbD_field, BitVec.getLsbD_append, if_pos (by omega)]

/-- A field of the high part of a concatenation. -/
theorem Bits.field_append_high {n m : Nat} (x : BitVec n) (y : BitVec m) (lo w : Nat) :
    Bits.field ⟨n + m, x ++ y⟩ (m + lo) w = Bits.field ⟨n, x⟩ lo w := by
  apply BitVec.eq_of_getLsbD_eq
  intro k hk
  rw [Bits.getLsbD_field, Bits.getLsbD_field, BitVec.getLsbD_append, if_neg (by omega),
    show m + lo + k - m = lo + k by omega]

/-- The whole of a vector as a field of itself. -/
theorem Bits.field_whole {n : Nat} (x : BitVec n) : Bits.field ⟨n, x⟩ 0 n = x := by
  apply BitVec.eq_of_getLsbD_eq
  intro k hk
  rw [Bits.getLsbD_field]
  simp [hk]

/-- A field within a field. -/
theorem Bits.field_field (c : Bits) {lo w lo' w' : Nat} (h : lo' + w' ≤ w) :
    Bits.field ⟨w, c.field lo w⟩ lo' w' = c.field (lo + lo') w' := by
  apply BitVec.eq_of_getLsbD_eq
  intro k hk
  rw [Bits.getLsbD_field, Bits.getLsbD_field, Bits.getLsbD_field]
  simp [hk, show lo' + k < w by omega, Nat.add_assoc]

/-! ### The header -/

@[simp] theorem Desc.ofBits_toBits (d : Desc) : Desc.ofBits d.toBits = d := by cases d <;> rfl

@[simp] theorem Desc.toBits_ofBits (b : BitVec 2) : (Desc.ofBits b).toBits = b := by
  revert b; decide

/-- The fields of a header byte built from its parts (R71). -/
theorem header_fields (d : Desc) (opc : BitVec 4) :
    Bits.field ⟨8, 0#2 ++ d.toBits ++ opc⟩ 6 2 = 0#2 ∧ Bits.field ⟨8, 0#2 ++ d.toBits ++ opc⟩ 4 2 = d.toBits ∧
      Bits.field ⟨8, 0#2 ++ d.toBits ++ opc⟩ 0 4 = opc := by
  revert opc
  cases d <;> decide

/-- A header byte with `RSV` = 00 is the one built from its other two fields. -/
theorem header_of_fields (h : BitVec 8) (hr : Bits.field ⟨8, h⟩ 6 2 = 0#2) :
    0#2 ++ (Desc.ofBits (Bits.field ⟨8, h⟩ 4 2)).toBits ++ Bits.field ⟨8, h⟩ 0 4 = h := by
  rw [Desc.toBits_ofBits]
  revert h
  decide

/-! ### Counted words -/

/-- Element `i` of packed bytes stands at bits 8i+7 to 8i (R78, R83, R84). -/
theorem getLsbD_packBytes (bs : List Byte) (i k : Nat) (hi : i < bs.length) (hk : k < 8) :
    (packBytes bs).getLsbD (8 * i + k) = bs[i].getLsbD k := by
  induction bs generalizing i with
  | nil => simp at hi
  | cons b bs ih =>
    rw [packBytes, BitVec.getLsbD_append]
    cases i with
    | zero => simp [hk]
    | succ i =>
      rw [if_neg (by omega), show 8 * (i + 1) + k - 8 = 8 * i + k by omega, ih i (by simpa using hi)]
      simp

theorem field_packBytes (bs : List Byte) (i : Nat) (hi : i < bs.length) :
    Bits.field ⟨8 * bs.length, packBytes bs⟩ (8 * i) 8 = bs[i] := by
  apply BitVec.eq_of_getLsbD_eq
  intro k hk
  rw [Bits.getLsbD_field, getLsbD_packBytes bs i k hi hk]
  simp [hk]

@[simp] theorem countedBytes_clen (h : BitVec 8) (bs : List Byte) : (countedBytes h bs).clen = 24 + 8 * bs.length := by
  simp only [countedBytes]; omega

theorem countedBytes_head {h : BitVec 8} {bs : List Byte} {lo w : Nat} (hw : lo + w ≤ 8) :
    (countedBytes h bs).field lo w = Bits.field ⟨8, h⟩ lo w :=
  Bits.field_append_low _ _ hw

theorem countedBytes_count (h : BitVec 8) (bs : List Byte) :
    (countedBytes h bs).field 8 16 = BitVec.ofNat 16 bs.length := by
  have h1 := Bits.field_append_high (packBytes bs ++ BitVec.ofNat 16 bs.length) h 0 16
  have h2 := Bits.field_append_low (packBytes bs) (BitVec.ofNat 16 bs.length) (lo := 0) (w := 16) (by omega)
  exact h1.trans (h2.trans (Bits.field_whole _))

theorem countedBytes_element (h : BitVec 8) (bs : List Byte) (i : Nat) (hi : i < bs.length) :
    (countedBytes h bs).field (24 + 8 * i) 8 = bs[i] := by
  have h1 := Bits.field_append_high (packBytes bs ++ BitVec.ofNat 16 bs.length) h (16 + 8 * i) 8
  have h2 := Bits.field_append_high (packBytes bs) (BitVec.ofNat 16 bs.length) (8 * i) 8
  rw [countedBytes, show 24 + 8 * i = 8 + (16 + 8 * i) by omega, h1, h2, field_packBytes bs i hi]

/-! ### The decoder -/

/-- Everything a successful decoding says of the vector: a header, `RSV` = 00, the length of its format, and the
command its fields spell. -/
theorem decode_eq_ok {c : Bits} {i : Instr} (h : decode c = .ok i) :
    8 ≤ c.clen ∧ c.field 6 2 = 0#2 ∧ c.need (formatOf (c.field 0 4)) = some c.clen ∧ i = c.instr := by
  unfold decode at h
  split at h
  · cases h
  · split at h
    · cases h
    · split at h
      · cases h
      · split at h
        · cases h; simp_all
        · cases h

/-- And conversely. -/
theorem decode_ok {c : Bits} (hlen : 8 ≤ c.clen) (hr : c.field 6 2 = 0#2)
    (hn : c.need (formatOf (c.field 0 4)) = some c.clen) : decode c = .ok c.instr := by
  unfold decode
  rw [if_neg (by omega), if_neg (by simp [hr]), hn]
  simp

@[simp] theorem Bits.length_chars (c : Bits) : c.chars.length = (c.field 8 16).toNat := by simp [Bits.chars]

@[simp] theorem Bits.getElem_chars (c : Bits) (i : Nat) (h : i < c.chars.length) :
    c.chars[i] = c.field (24 + 8 * i) 8 := by simp [Bits.chars]

/-! ### Words of fixed length -/

/-- The fields of the header below any body. -/
theorem body_header_fields {n : Nat} (x : BitVec n) (d : Desc) (opc : BitVec 4) :
    Bits.field ⟨n + 8, x ++ (0#2 ++ d.toBits ++ opc)⟩ 6 2 = 0#2 ∧
      Bits.field ⟨n + 8, x ++ (0#2 ++ d.toBits ++ opc)⟩ 4 2 = d.toBits ∧
      Bits.field ⟨n + 8, x ++ (0#2 ++ d.toBits ++ opc)⟩ 0 4 = opc := by
  obtain ⟨h1, h2, h3⟩ := header_fields d opc
  exact ⟨(Bits.field_append_low _ _ (by omega)).trans h1, (Bits.field_append_low _ _ (by omega)).trans h2,
    (Bits.field_append_low _ _ (by omega)).trans h3⟩

/-- A body of the length its opcode's format asks for decodes to the command its fields spell. -/
theorem decode_body {n : Nat} (x : BitVec n) (d : Desc) (opc : BitVec 4)
    (h : ∀ c : Bits, c.need (formatOf opc) = some (n + 8)) :
    decode ⟨n + 8, x ++ (0#2 ++ d.toBits ++ opc)⟩ = .ok (Bits.instr ⟨n + 8, x ++ (0#2 ++ d.toBits ++ opc)⟩) := by
  obtain ⟨h1, -, h3⟩ := body_header_fields x d opc
  exact decode_ok (by simp) h1 (by rw [h3, h])

/-- The one field of a body, and the lower and the upper of two. -/
theorem field_body_one {n m : Nat} (x : BitVec n) (y : BitVec m) : Bits.field ⟨n + m, x ++ y⟩ m n = x :=
  (Bits.field_append_high x y 0 n).trans (Bits.field_whole x)

theorem field_body_low {n k m : Nat} (x : BitVec n) (z : BitVec k) (y : BitVec m) :
    Bits.field ⟨n + k + m, x ++ z ++ y⟩ m k = z :=
  (Bits.field_append_high (x ++ z) y 0 k).trans ((Bits.field_append_low x z (by omega)).trans (Bits.field_whole z))

theorem field_body_high {n k m : Nat} (x : BitVec n) (z : BitVec k) (y : BitVec m) :
    Bits.field ⟨n + k + m, x ++ z ++ y⟩ (m + k) n = x :=
  (Bits.field_append_high (x ++ z) y k n).trans ((Bits.field_append_high x z 0 n).trans (Bits.field_whole x))

end Sys2Proof
end

