-- ==== Sys2Proof/Laws/Memory.lean ====
section
/-! SUPPORT. The laws of memory: read after write for one byte and for a span, on every memory; the canonical form,
which every operation keeps; and that canonical memories with the same bytes are the same list. -/

namespace Sys2Proof.Machine

@[simp] theorem Memory.get_nil (k : Nat) : Memory.get [] k = 0#8 := rfl

theorem Memory.get_cons (a : Nat) (b : Byte) (m : Memory) (k : Nat) :
    Memory.get ((a, b) :: m) k = if k = a then b else Memory.get m k := rfl

/-! ### Read after write -/

theorem Memory.get_erase (m : Memory) (k j : Nat) :
    (m.erase k).get j = if j = k then 0#8 else m.get j := by
  induction m with
  | nil => simp [Memory.erase]
  | cons p m ih =>
    obtain ⟨a, c⟩ := p
    by_cases hak : a = k
    · by_cases hj : j = k <;> simp_all [Memory.erase, Memory.get_cons]
    · by_cases hj : j = k
      · subst hj; simp_all [Memory.erase, Memory.get_cons, Ne.symm hak]
      · simp_all [Memory.erase, Memory.get_cons]

theorem Memory.get_insert_ne (m : Memory) {k j : Nat} (b : Byte) (h : j ≠ k) :
    (m.insert k b).get j = m.get j := by
  induction m with
  | nil => simp [Memory.insert, Memory.get_cons, h]
  | cons p m ih =>
    obtain ⟨a, c⟩ := p
    unfold Memory.insert
    split
    · simp [Memory.get_cons, h]
    · simp [Memory.get_cons, ih]

theorem Memory.get_insert_erase (m : Memory) (k : Nat) (b : Byte) : ((m.erase k).insert k b).get k = b := by
  induction m with
  | nil => simp [Memory.erase, Memory.insert, Memory.get_cons]
  | cons p m ih =>
    obtain ⟨a, c⟩ := p
    by_cases hak : a = k
    · simp [Memory.erase, hak, ih]
    · simp only [Memory.erase, hak, if_false]
      unfold Memory.insert
      split
      · simp [Memory.get_cons]
      · simp [Memory.get_cons, Ne.symm hak, ih]

/-- Read after write, one byte. -/
theorem Memory.get_set (m : Memory) (k j : Nat) (b : Byte) : (m.set k b).get j = if j = k then b else m.get j := by
  unfold Memory.set
  by_cases hj : j = k
  · subst hj
    split
    · simp [Memory.get_erase, *]
    · simp [Memory.get_insert_erase]
  · split
    · simp [Memory.get_erase, hj]
    · simp [Memory.get_insert_ne _ _ hj, Memory.get_erase, hj]

@[simp] theorem Memory.get_set_self (m : Memory) (k : Nat) (b : Byte) : (m.set k b).get k = b := by
  simp [Memory.get_set]

theorem Memory.get_set_ne (m : Memory) {k j : Nat} (b : Byte) (h : j ≠ k) : (m.set k b).get j = m.get j := by
  simp [Memory.get_set, h]

/-- Read after writing a span: outside it. -/
theorem Memory.get_setSpan_out (m : Memory) (a : Nat) (bs : List Byte) (j : Nat) (h : j < a ∨ a + bs.length ≤ j) :
    (m.setSpan a bs).get j = m.get j := by
  induction bs generalizing m a with
  | nil => rfl
  | cons b bs ih =>
    simp only [List.length_cons] at h
    rw [Memory.setSpan, ih _ _ (by omega), Memory.get_set_ne _ _ (by omega)]

/-- Read after writing a span: inside it. -/
theorem Memory.get_setSpan_in (m : Memory) (a : Nat) (bs : List Byte) (i : Nat) (h : i < bs.length) :
    (m.setSpan a bs).get (a + i) = bs[i] := by
  induction bs generalizing m a i with
  | nil => simp at h
  | cons b bs ih =>
    cases i with
    | zero => simp [Memory.setSpan, Memory.get_setSpan_out]
    | succ i =>
      have := ih (m.set a b) (a + 1) i (by simpa using h)
      rw [Memory.setSpan, show a + (i + 1) = a + 1 + i by omega, this]
      simp

@[simp] theorem Memory.length_getSpan (m : Memory) (a n : Nat) : (m.getSpan a n).length = n := by
  simp [Memory.getSpan]

@[simp] theorem Memory.getElem_getSpan (m : Memory) (a n i : Nat) (h : i < (m.getSpan a n).length) :
    (m.getSpan a n)[i] = m.get (a + i) := by
  simp [Memory.getSpan]

/-- Reading back a span just written. -/
theorem Memory.getSpan_setSpan (m : Memory) (a : Nat) (bs : List Byte) :
    (m.setSpan a bs).getSpan a bs.length = bs := by
  apply List.ext_getElem (by simp)
  intro i h1 h2
  rw [Memory.getElem_getSpan, Memory.get_setSpan_in _ _ _ _ h2]

/-! ### The canonical form -/

theorem Memory.wfFrom_cons (lo : Option Nat) (a : Nat) (b : Byte) (m : Memory) :
    Memory.wfFrom lo ((a, b) :: m) = true ↔ (∀ l, lo = some l → l < a) ∧ b ≠ 0#8 ∧ Memory.wfFrom (some a) m = true := by
  cases lo <;> simp [Memory.wfFrom, and_assoc]

theorem Memory.wfFrom_weaken {l l' : Option Nat} {m : Memory} (h : Memory.wfFrom l m = true)
    (hl : ∀ x, l' = some x → ∃ y, l = some y ∧ x ≤ y) : Memory.wfFrom l' m = true := by
  cases m with
  | nil => simp [Memory.wfFrom]
  | cons p m =>
    obtain ⟨a, b⟩ := p
    rw [Memory.wfFrom_cons] at h ⊢
    refine ⟨fun x hx => ?_, h.2⟩
    obtain ⟨y, hy, hxy⟩ := hl x hx
    exact lt_of_le_of_lt hxy (h.1 y hy)

theorem Memory.wfFrom_erase {lo : Option Nat} {m : Memory} (k : Nat) (h : Memory.wfFrom lo m = true) :
    Memory.wfFrom lo (m.erase k) = true := by
  induction m generalizing lo with
  | nil => simpa [Memory.erase] using h
  | cons p m ih =>
    obtain ⟨a, b⟩ := p
    rw [Memory.wfFrom_cons] at h
    unfold Memory.erase
    split
    · exact Memory.wfFrom_weaken (ih h.2.2) fun x hx => ⟨a, rfl, le_of_lt (h.1 x hx)⟩
    · rw [Memory.wfFrom_cons]; exact ⟨h.1, h.2.1, ih h.2.2⟩

theorem Memory.wfFrom_insert {lo : Option Nat} {m : Memory} {k : Nat} {b : Byte} (h : Memory.wfFrom lo m = true)
    (hb : b ≠ 0#8) (hlo : ∀ l, lo = some l → l < k) (hk : ∀ p ∈ m, p.1 ≠ k) :
    Memory.wfFrom lo (m.insert k b) = true := by
  induction m generalizing lo with
  | nil =>
    rw [Memory.insert, Memory.wfFrom_cons]
    exact ⟨hlo, hb, rfl⟩
  | cons p m ih =>
    obtain ⟨a, c⟩ := p
    rw [Memory.wfFrom_cons] at h
    have hak : a ≠ k := hk (a, c) (by simp)
    unfold Memory.insert
    split
    · next hlt =>
      rw [Memory.wfFrom_cons, Memory.wfFrom_cons]
      exact ⟨hlo, hb, fun l hl => by simp only [Option.some.injEq] at hl; omega, h.2⟩
    · next hlt =>
      rw [Memory.wfFrom_cons]
      refine ⟨h.1, h.2.1, ih h.2.2 (fun l hl => ?_) fun p hp => hk p (by simp [hp])⟩
      simp only [Option.some.injEq] at hl
      omega

theorem Memory.not_mem_erase (m : Memory) (k : Nat) : ∀ p ∈ m.erase k, p.1 ≠ k := by
  induction m with
  | nil => simp [Memory.erase]
  | cons p m ih =>
    obtain ⟨a, c⟩ := p
    unfold Memory.erase
    split
    · exact ih
    · next h => intro q hq
                rcases List.mem_cons.1 hq with rfl | hq
                · exact h
                · exact ih q hq

/-- A write of one byte keeps the canonical form. -/
theorem Memory.wf_set {m : Memory} (k : Nat) (b : Byte) (h : m.wf = true) : (m.set k b).wf = true := by
  unfold Memory.set Memory.wf
  split
  · exact Memory.wfFrom_erase k h
  · next hb => exact Memory.wfFrom_insert (Memory.wfFrom_erase k h) hb (by simp) (Memory.not_mem_erase m k)

/-- A write of a span keeps the canonical form. -/
theorem Memory.wf_setSpan {m : Memory} (a : Nat) (bs : List Byte) (h : m.wf = true) : (m.setSpan a bs).wf = true := by
  induction bs generalizing m a with
  | nil => exact h
  | cons b bs ih => exact ih (a + 1) (Memory.wf_set a b h)

theorem Memory.wf_ofBytes (bs : List Byte) : (Memory.ofBytes bs).wf = true := Memory.wf_setSpan 0 bs rfl

/-! ### Every listed offset exists -/

theorem Memory.within_iff (m : Memory) (len : Nat) : m.within len = true ↔ ∀ p ∈ m, p.1 < len := by
  simp [Memory.within]

theorem Memory.mem_erase {m : Memory} {k : Nat} {p : Host.Cell} (h : p ∈ m.erase k) : p ∈ m := by
  induction m with
  | nil => simp [Memory.erase] at h
  | cons q m ih =>
    obtain ⟨a, c⟩ := q
    unfold Memory.erase at h
    split at h
    · exact List.mem_cons_of_mem _ (ih h)
    · rcases List.mem_cons.1 h with rfl | h
      · exact List.mem_cons_self
      · exact List.mem_cons_of_mem _ (ih h)

theorem Memory.mem_insert {m : Memory} {k : Nat} {b : Byte} {p : Host.Cell} (h : p ∈ m.insert k b) :
    p = (k, b) ∨ p ∈ m := by
  induction m with
  | nil => simpa [Memory.insert] using h
  | cons q m ih =>
    obtain ⟨a, c⟩ := q
    unfold Memory.insert at h
    split at h
    · simpa using h
    · rcases List.mem_cons.1 h with rfl | h
      · simp
      · rcases ih h with h | h <;> simp [h]

theorem Memory.within_set {m : Memory} {len k : Nat} (b : Byte) (h : m.within len = true) (hk : k < len) :
    (m.set k b).within len = true := by
  rw [Memory.within_iff] at h ⊢
  intro p hp
  unfold Memory.set at hp
  split at hp
  · exact h p (Memory.mem_erase hp)
  · rcases Memory.mem_insert hp with rfl | hp
    · exact hk
    · exact h p (Memory.mem_erase hp)

theorem Memory.within_setSpan {m : Memory} {len a : Nat} (bs : List Byte) (h : m.within len = true)
    (ha : a + bs.length ≤ len) : (m.setSpan a bs).within len = true := by
  induction bs generalizing m a with
  | nil => exact h
  | cons b bs ih =>
    simp only [List.length_cons] at ha
    exact ih (Memory.within_set b h (by omega)) (by omega)

/-! ### Equal bytes, equal data -/

theorem Memory.get_of_wfFrom {l : Nat} {m : Memory} (h : Memory.wfFrom (some l) m = true) {k : Nat} (hk : k ≤ l) :
    m.get k = 0#8 := by
  induction m generalizing l with
  | nil => rfl
  | cons p m ih =>
    obtain ⟨a, b⟩ := p
    rw [Memory.wfFrom_cons] at h
    have := h.1 l rfl
    rw [Memory.get_cons, if_neg (by omega), ih h.2.2 (by omega)]

theorem Memory.wfFrom_ext {lo lo' : Option Nat} {m m' : Memory} (h : Memory.wfFrom lo m = true)
    (h' : Memory.wfFrom lo' m' = true) (hg : ∀ k, m.get k = m'.get k) : m = m' := by
  induction m generalizing lo lo' m' with
  | nil =>
    cases m' with
    | nil => rfl
    | cons p m' =>
      obtain ⟨a, b⟩ := p
      rw [Memory.wfFrom_cons] at h'
      have := hg a
      simp only [Memory.get_nil, Memory.get_cons, if_true] at this
      exact absurd this.symm h'.2.1
  | cons p m ih =>
    obtain ⟨a, b⟩ := p
    rw [Memory.wfFrom_cons] at h
    cases m' with
    | nil =>
      have := hg a
      simp only [Memory.get_nil, Memory.get_cons, if_true] at this
      exact absurd this h.2.1
    | cons p' m' =>
      obtain ⟨a', b'⟩ := p'
      rw [Memory.wfFrom_cons] at h'
      have haa : a = a' := by
        rcases lt_trichotomy a a' with hlt | heq | hlt
        · have := hg a
          rw [Memory.get_cons, if_pos rfl, Memory.get_cons, if_neg (by omega),
            Memory.get_of_wfFrom h'.2.2 (by omega)] at this
          exact absurd this h.2.1
        · exact heq
        · have := hg a'
          rw [Memory.get_cons, if_neg (by omega), Memory.get_cons, if_pos rfl,
            Memory.get_of_wfFrom h.2.2 (by omega)] at this
          exact absurd this.symm h'.2.1
      subst haa
      have hb : b = b' := by simpa [Memory.get_cons] using hg a
      subst hb
      rw [ih h.2.2 h'.2.2 fun k => ?_]
      by_cases hk : k ≤ a
      · rw [Memory.get_of_wfFrom h.2.2 hk, Memory.get_of_wfFrom h'.2.2 hk]
      · simpa [Memory.get_cons, show k ≠ a by omega] using hg k

/-- Two canonical memories with the same byte at every offset are the same list. -/
theorem Memory.wf_ext {m m' : Memory} (h : m.wf = true) (h' : m'.wf = true) (hg : ∀ k, m.get k = m'.get k) : m = m' :=
  Memory.wfFrom_ext h h' hg

/-! ### Spans as a whole -/

/-- What a written span leaves at every offset. -/
theorem Memory.get_setSpan (m : Memory) (a : Nat) (bs : List Byte) (k : Nat) :
    (m.setSpan a bs).get k = if h : a ≤ k ∧ k < a + bs.length then bs[k - a]'(by omega) else m.get k := by
  split
  · rw [← Memory.get_setSpan_in m a bs (k - a) (by omega)]
    congr 1
    omega
  · exact Memory.get_setSpan_out _ _ _ _ (by omega)

/-- Memories that agree on a span have the same bytes there. -/
theorem Memory.getSpan_congr {m m' : Memory} {a n : Nat} (h : ∀ k, a ≤ k → k < a + n → m.get k = m'.get k) :
    m.getSpan a n = m'.getSpan a n := by
  apply List.ext_getElem (by simp)
  intro i h1 h2
  simp only [Memory.length_getSpan] at h1
  simpa using h _ (by omega) (by omega)

/-- A span is the list whose elements its bytes are. -/
theorem Memory.getSpan_eq {m : Memory} {a : Nat} {bs : List Byte} (h : ∀ i (hi : i < bs.length), m.get (a + i) = bs[i]) :
    m.getSpan a bs.length = bs := by
  apply List.ext_getElem (by simp)
  intro i h1 h2
  simp [h i h2]

end Sys2Proof.Machine
end

