-- ==== Sys2Proof/Laws/Ops.lean ====
section
/-! SUPPORT. What the shared operations can do, said once: `MemRead`, `MemWrite`, the load, the store, the count check. -/

namespace Sys2Proof.Machine

theorem memRead_ok {s : State} {off : Word32} {n : Nat} (h : inBounds off n s.len = true) :
    memRead s off n = .ok (s.mem.getSpan (spanStart off) n) := by simp [memRead, h]

theorem memRead_bounds {s : State} {off : Word32} {n : Nat} (h : inBounds off n s.len = false) :
    memRead s off n = .error .bounds := by simp [memRead, h]

theorem memWrite_ok {s : State} {off : Word32} {bs : List Byte} (h : inBounds off bs.length s.len = true) :
    memWrite s off bs = .ok { s with mem := s.mem.setSpan (spanStart off) bs } := by simp [memWrite, h]

theorem memWrite_bounds {s : State} {off : Word32} {bs : List Byte} (h : inBounds off bs.length s.len = false) :
    memWrite s off bs = .error .bounds := by simp [memWrite, h]

/-- An admitted load answers the combined bytes of its span. -/
theorem load_ok {W w : Nat} {mk : BitVec W → Response} {d : Desc} {off : Word32} {s : State}
    (h : inBounds off w s.len = true) :
    load W w mk d off s = respond (mk (combine W (select d) (s.mem.getSpan (spanStart off) w))) s := by
  simp [load, memRead_ok h]

/-- A load out of bounds raises Bounds. -/
theorem load_bounds {W w : Nat} {mk : BitVec W → Response} {d : Desc} {off : Word32} {s : State}
    (h : inBounds off w s.len = false) : load W w mk d off s = raise .bounds s := by
  simp [load, memRead_bounds h]

/-- An admitted store writes the placed bytes of its value on its span. -/
theorem store_ok {w W : Nat} {d : Desc} {off : Word32} {v : BitVec W} {s : State} (h : inBounds off w s.len = true) :
    store w d off v s =
      respond .done { s with mem := s.mem.setSpan (spanStart off) (place (select d) w v) } := by
  have h' : inBounds off (place (select d) w v).length s.len = true := by simpa using h
  simp [store, memWrite_ok h']

/-- A store out of bounds raises Bounds and writes nothing (R53). -/
theorem store_bounds {w W : Nat} {d : Desc} {off : Word32} {v : BitVec W} {s : State}
    (h : inBounds off w s.len = false) : store w d off v s = raise .bounds s := by
  have h' : inBounds off (place (select d) w v).length s.len = false := by simpa using h
  simp [store, memWrite_bounds h']

theorem withCount_ok {n : Byte} {r : Nat → Response} {s : State} (h : n.toNat ≤ 64) :
    withCount n r s = respond (r n.toNat) s := by
  simp [withCount, Config.registerBits, Nat.not_lt.2 h]

theorem withCount_range {n : Byte} {r : Nat → Response} {s : State} (h : 64 < n.toNat) :
    withCount n r s = raise .range s := by
  simp [withCount, Config.registerBits, h]

/-! ### Everything an operation can do to a state -/

/-- A command's whole effect on the state: other bytes, perhaps, and one more response. -/
def answered (m : Memory) (r : Response) (s : State) : State := { s with mem := m, responses := s.responses ++ [r] }

theorem respond_answered (r : Response) (s : State) : respond r s = answered s.mem r s := rfl
theorem raise_answered (f : FaultCode) (s : State) : raise f s = answered s.mem (.fault f) s := rfl

theorem load_answered (W w : Nat) (mk : BitVec W → Response) (d : Desc) (off : Word32) (s : State) :
    ∃ r, load W w mk d off s = answered s.mem r s := by
  cases h : inBounds off w s.len
  · exact ⟨_, load_bounds h⟩
  · exact ⟨_, load_ok h⟩

/-- A store leaves the bytes outside its span alone, keeps the canonical form and lists no offset that does not exist. -/
theorem store_answered (w : Nat) {W : Nat} (d : Desc) (off : Word32) (v : BitVec W) (s : State) :
    ∃ m r, store w d off v s = answered m r s ∧ (s.mem.wf = true → m.wf = true) ∧
      (s.mem.within s.len = true → m.within s.len = true) ∧
      ∀ k : Nat, ¬ (off.toInt ≤ (k : Int) ∧ (k : Int) < off.toInt + w) → m.get k = s.mem.get k := by
  cases h : inBounds off w s.len
  · exact ⟨s.mem, .fault .bounds, store_bounds h, id, id, fun _ _ => rfl⟩
  · refine ⟨_, _, store_ok h, Memory.wf_setSpan _ _, fun hw => ?_, fun k hk => ?_⟩
    · exact Memory.within_setSpan _ hw (by simpa using spanStart_add_le h)
    · rw [inBounds_iff] at h
      refine Memory.get_setSpan_out _ _ _ _ ?_
      simp only [length_place, spanStart]
      omega

theorem withCount_answered (n : Byte) (r : Nat → Response) (s : State) :
    ∃ q, withCount n r s = answered s.mem q s := by
  by_cases h : n.toNat ≤ 64
  · exact ⟨_, withCount_ok h⟩
  · exact ⟨_, withCount_range (by omega)⟩

/-! ### A store, then a load -/

/-- A load at the offset, width and order of an admitted store answers the value stored. -/
theorem load_store {w W : Nat} (hW : W = 8 * w) (v : BitVec W) (mk : BitVec W → Response) (d : Desc) {off : Word32}
    {s : State} (h : inBounds off w s.len = true) :
    load W w mk d off (store w d off v s) = respond (mk v) (store w d off v s) := by
  have h' : inBounds off w (store w d off v s).len = true := by rw [store_ok h]; exact h
  have hs := Memory.getSpan_setSpan s.mem (spanStart off) (place (select d) w v)
  simp only [length_place] at hs
  rw [load_ok h', store_ok h]
  simp only [respond_mem, hs, combine_place _ _ _ hW]

end Sys2Proof.Machine
end

