-- ==== Sys2Proof/Laws/Exec.lean ====
section
/-! SUPPORT. What a command and a step can do, said once: the inversion lemmas every invariant is derived from. -/

namespace Sys2Proof.Machine

/-- Every command answers a next state: the same `LEN` and events, one more response, and a memory that differs at most
on the span of a writing command, canonical and within the buffer if it was. -/
theorem exec_answered (i : Instr) (s : State) :
    ∃ m r, exec i s = .next (answered m r s) ∧ (s.mem.wf = true → m.wf = true) ∧
      (s.mem.within s.len = true → m.within s.len = true) ∧ (writesBuffer i = false → m = s.mem) ∧
      ∀ k, ¬ touches i k → m.get k = s.mem.get k := by
  have same : ∀ {t : State} {r : Response}, t = answered s.mem r s →
      ∃ m r, (Host.Outcome.next t : Host.Outcome State Fault Refusal) = .next (answered m r s) ∧
        (s.mem.wf = true → m.wf = true) ∧ (s.mem.within s.len = true → m.within s.len = true) ∧
        (writesBuffer i = false → m = s.mem) ∧ ∀ k, ¬ touches i k → m.get k = s.mem.get k := by
    rintro t r rfl
    exact ⟨s.mem, r, rfl, id, id, fun _ => rfl, fun _ _ => rfl⟩
  have written : ∀ {W w : Nat} {d : Desc} {off : Word32} {v : BitVec W}, commandSpan i = some (off, w) →
      writesBuffer i = true →
      ∃ m r, (Host.Outcome.next (store w d off v s) : Host.Outcome State Fault Refusal) = .next (answered m r s) ∧
        (s.mem.wf = true → m.wf = true) ∧ (s.mem.within s.len = true → m.within s.len = true) ∧
        (writesBuffer i = false → m = s.mem) ∧ ∀ k, ¬ touches i k → m.get k = s.mem.get k := by
    intro W w d off v hspan hw
    obtain ⟨m, r, h, hwf, hin, hout⟩ := store_answered w d off v s
    refine ⟨m, r, by rw [h], hwf, hin, by simp [hw], fun k hk => hout k fun hk' => hk ⟨off, w, hspan, hk'⟩⟩
  cases i with
  | get d => exact same rfl
  | toInt d off => exact same (load_answered 32 4 .res32 d off s).choose_spec
  | fromInt d off v => exact written rfl rfl
  | toLong d off => exact same (load_answered 64 8 .res64 d off s).choose_spec
  | toLongP d hi lo => exact same rfl
  | fromLong d off v => exact written rfl rfl
  | toFloat d off => exact same (load_answered 32 4 .res32 d off s).choose_spec
  | fromFloat d off v => exact written rfl rfl
  | toDouble d off => exact same (load_answered 64 8 .res64 d off s).choose_spec
  | fromDouble d off v => exact written rfl rfl
  | toBitStr d n v => exact same (withCount_answered n (fun k => .str (topBitString v k)) s).choose_spec
  | toLastBitStr d n v => exact same (withCount_answered n (fun k => .str (lastBitString v k)) s).choose_spec
  | fromBitStr d cs =>
    simp only [exec, execFromBitStr]
    split
    · exact same rfl
    · exact same rfl
  | reverse d n v => exact same (withCount_answered n (fun k => .res64 (reverseLow v k)) s).choose_spec
  | reverseLeft d n v => exact same (withCount_answered n (fun k => .res64 (reverseHigh v k)) s).choose_spec
  | bitStr2Long d cs =>
    simp only [exec, execBitStr2Long]
    split
    · exact same rfl
    · split
      · exact same rfl
      · exact same rfl

/-- The step, by what the host has pending. -/
theorem step_nil {s : State} (h : s.pending = []) : step s = .next s := by simp [step, takeEvent, h, idle]

theorem step_command {s : State} {c : Bits} {es : List HostEvent} (h : s.pending = .command c :: es) :
    step s = runCommand c { s with pending := es } := by simp [step, takeEvent, h, runEvent]

theorem step_write {s : State} {k : Nat} {b : Byte} {es : List HostEvent} (h : s.pending = .write k b :: es) :
    step s = hostWrite k b { s with pending := es } := by simp [step, takeEvent, h, runEvent]

theorem step_bind {s : State} {bs : List Byte} {es : List HostEvent} (h : s.pending = .bind bs :: es) :
    step s = hostBind bs { s with pending := es } := by simp [step, takeEvent, h, runEvent]

theorem step_reset {s : State} {es : List HostEvent} (h : s.pending = .reset :: es) :
    step s = .next { s with pending := es } := by simp [step, takeEvent, h, runEvent, applyReset]

/-- A command that decodes runs; one that does not is answered Illegal. -/
theorem runCommand_ok {c : Bits} {i : Instr} (h : decode c = .ok i) (s : State) : runCommand c s = exec i s := by
  simp [runCommand, h]

theorem runCommand_error {c : Bits} {e : DecodeError} (h : decode c = .error e) (s : State) :
    runCommand c s = .next (raise .illegal s) := by
  simp [runCommand, h, answerIllegal]

/-! ### The three shapes of a command -/

theorem load_shape (W w : Nat) (mk : BitVec W → Response) (d : Desc) (off : Word32) (s : State) :
    load W w mk d off s =
      answered s.mem (if inBounds off w s.len then mk (combine W (select d) (s.mem.getSpan (spanStart off) w))
        else .fault .bounds) s := by
  cases h : inBounds off w s.len
  · rw [load_bounds h]; rfl
  · rw [load_ok h]; rfl

theorem store_shape (w : Nat) {W : Nat} (d : Desc) (off : Word32) (v : BitVec W) (s : State) :
    store w d off v s =
      if inBounds off w s.len then answered (s.mem.setSpan (spanStart off) (place (select d) w v)) .done s
      else answered s.mem (.fault .bounds) s := by
  cases h : inBounds off w s.len
  · rw [store_bounds h]; rfl
  · rw [store_ok h]; rfl

theorem withCount_shape (n : Byte) (r : Nat → Response) : ∃ q, ∀ s : State, withCount n r s = answered s.mem q s := by
  by_cases h : n.toNat ≤ 64
  · exact ⟨_, fun s => withCount_ok h⟩
  · exact ⟨_, fun s => withCount_range (by omega)⟩

/-- Every command has one answer for every state; or reads its span and answers from it; or writes fixed bytes on it. -/
theorem exec_shape (i : Instr) :
    (commandSpan i = none ∧ writesBuffer i = false ∧ ∃ r, ∀ s, exec i s = .next (answered s.mem r s)) ∨
    (∃ off w, ∃ f : List Byte → Response, commandSpan i = some (off, w) ∧ writesBuffer i = false ∧
      ∀ s, exec i s = .next (answered s.mem
        (if inBounds off w s.len then f (s.mem.getSpan (spanStart off) w) else .fault .bounds) s)) ∨
    (∃ off w bs, bs.length = w ∧ commandSpan i = some (off, w) ∧ writesBuffer i = true ∧
      ∀ s, exec i s = .next (if inBounds off w s.len then answered (s.mem.setSpan (spanStart off) bs) .done s
        else answered s.mem (.fault .bounds) s)) := by
  have count : ∀ n r, ∃ q, ∀ s : State,
      (.next (withCount n r s) : Host.Outcome State Fault Refusal) = .next (answered s.mem q s) := by
    intro n r
    obtain ⟨q, hq⟩ := withCount_shape n r
    exact ⟨q, fun s => by rw [hq]⟩
  have ld32 : ∀ d off (s : State), (.next (load 32 4 .res32 d off s) : Host.Outcome State Fault Refusal) = _ :=
    fun d off s => congrArg Host.Outcome.next (load_shape 32 4 .res32 d off s)
  have ld64 : ∀ d off (s : State), (.next (load 64 8 .res64 d off s) : Host.Outcome State Fault Refusal) = _ :=
    fun d off s => congrArg Host.Outcome.next (load_shape 64 8 .res64 d off s)
  have st : ∀ w W d off (v : BitVec W) (s : State), (.next (store w d off v s) : Host.Outcome State Fault Refusal) = _ :=
    fun w W d off v s => congrArg Host.Outcome.next (store_shape w d off v s)
  cases i with
  | get d => exact .inl ⟨rfl, rfl, _, fun s => rfl⟩
  | toInt d off => exact .inr (.inl ⟨off, 4, fun bs => .res32 (combine 32 (select d) bs), rfl, rfl, ld32 d off⟩)
  | toFloat d off => exact .inr (.inl ⟨off, 4, fun bs => .res32 (combine 32 (select d) bs), rfl, rfl, ld32 d off⟩)
  | toLong d off => exact .inr (.inl ⟨off, 8, fun bs => .res64 (combine 64 (select d) bs), rfl, rfl, ld64 d off⟩)
  | toDouble d off => exact .inr (.inl ⟨off, 8, fun bs => .res64 (combine 64 (select d) bs), rfl, rfl, ld64 d off⟩)
  | fromInt d off v => exact .inr (.inr ⟨off, 4, _, by simp, rfl, rfl, st 4 _ d off v⟩)
  | fromFloat d off v => exact .inr (.inr ⟨off, 4, _, by simp, rfl, rfl, st 4 _ d off v⟩)
  | fromLong d off v => exact .inr (.inr ⟨off, 8, _, by simp, rfl, rfl, st 8 _ d off v⟩)
  | fromDouble d off v => exact .inr (.inr ⟨off, 8, _, by simp, rfl, rfl, st 8 _ d off v⟩)
  | toLongP d hi lo => exact .inl ⟨rfl, rfl, _, fun s => rfl⟩
  | toBitStr d n v => exact .inl ⟨rfl, rfl, count _ _⟩
  | toLastBitStr d n v => exact .inl ⟨rfl, rfl, count _ _⟩
  | reverse d n v => exact .inl ⟨rfl, rfl, count _ _⟩
  | reverseLeft d n v => exact .inl ⟨rfl, rfl, count _ _⟩
  | fromBitStr d cs =>
    refine .inl ⟨rfl, rfl, ?_⟩
    cases h : cs.all isBitChar
    · exact ⟨_, fun s => by simp only [exec, execFromBitStr, h]; rfl⟩
    · exact ⟨_, fun s => by simp only [exec, execFromBitStr, h]; rfl⟩
  | bitStr2Long d cs =>
    refine .inl ⟨rfl, rfl, ?_⟩
    by_cases hl : cs.length > Config.registerBits
    · exact ⟨_, fun s => by simp only [exec, execBitStr2Long, hl]; rfl⟩
    · cases h : cs.all isBitChar
      · exact ⟨_, fun s => by simp only [exec, execBitStr2Long, hl, h]; rfl⟩
      · exact ⟨_, fun s => by simp only [exec, execBitStr2Long, hl, h]; rfl⟩

/-- The offsets of an admitted span, as the statements name them and as the memory laws do. -/
theorem touches_iff {i : Instr} {off : Word32} {w len : Nat} (h : commandSpan i = some (off, w))
    (hb : inBounds off w len = true) (k : Nat) : touches i k ↔ spanStart off ≤ k ∧ k < spanStart off + w := by
  rw [inBounds_iff] at hb
  unfold touches spanStart
  rw [h]
  constructor
  · rintro ⟨off', w', h', h1, h2⟩
    cases h'
    omega
  · rintro ⟨h1, h2⟩
    exact ⟨off, w, rfl, by omega, by omega⟩

end Sys2Proof.Machine
end

