-- ==== Sys2Proof/Laws/PerInstr.lean ====
section
/-! SUPPORT. The per-instruction family EncodedLength: the word of every command has the length its format prescribes
(R72 to R78). -/

namespace Sys2Proof.Laws

/-- The length of the command's word is the one R89 asks of the opcode's format. -/
def EncodedLength.Statement (i : Instr) : Prop :=
  (encode i).clen = match formatOf i.opc with
    | .z => 8
    | .b => 40
    | .w32 => 72
    | .w64 => 104
    | .p => 72
    | .n => 80
    | .s => 24 + 8 * (i.chars.getD []).length

theorem EncodedLength.get (d : Desc) : EncodedLength.Statement (.get d) := rfl
theorem EncodedLength.toInt (d : Desc) (off : Word32) : EncodedLength.Statement (.toInt d off) := rfl
theorem EncodedLength.fromInt (d : Desc) (off v : Word32) : EncodedLength.Statement (.fromInt d off v) := rfl
theorem EncodedLength.toLong (d : Desc) (off : Word32) : EncodedLength.Statement (.toLong d off) := rfl
theorem EncodedLength.toLongP (d : Desc) (hi lo : Word32) : EncodedLength.Statement (.toLongP d hi lo) := rfl
theorem EncodedLength.fromLong (d : Desc) (off : Word32) (v : Word64) :
    EncodedLength.Statement (.fromLong d off v) := rfl
theorem EncodedLength.toFloat (d : Desc) (off : Word32) : EncodedLength.Statement (.toFloat d off) := rfl
theorem EncodedLength.fromFloat (d : Desc) (off v : Word32) : EncodedLength.Statement (.fromFloat d off v) := rfl
theorem EncodedLength.toDouble (d : Desc) (off : Word32) : EncodedLength.Statement (.toDouble d off) := rfl
theorem EncodedLength.fromDouble (d : Desc) (off : Word32) (v : Word64) :
    EncodedLength.Statement (.fromDouble d off v) := rfl
theorem EncodedLength.toBitStr (d : Desc) (n : Byte) (v : Word64) : EncodedLength.Statement (.toBitStr d n v) := rfl
theorem EncodedLength.toLastBitStr (d : Desc) (n : Byte) (v : Word64) :
    EncodedLength.Statement (.toLastBitStr d n v) := rfl
theorem EncodedLength.fromBitStr (d : Desc) (cs : List Byte) : EncodedLength.Statement (.fromBitStr d cs) :=
  countedBytes_clen _ cs
theorem EncodedLength.reverse (d : Desc) (n : Byte) (v : Word64) : EncodedLength.Statement (.reverse d n v) := rfl
theorem EncodedLength.reverseLeft (d : Desc) (n : Byte) (v : Word64) :
    EncodedLength.Statement (.reverseLeft d n v) := rfl
theorem EncodedLength.bitStr2Long (d : Desc) (cs : List Byte) : EncodedLength.Statement (.bitStr2Long d cs) :=
  countedBytes_clen _ cs

end Sys2Proof.Laws
end

