-- ==== Sys2Proof/Machine/SourceForm.lean ====
section
/-! DEFINITION. The written form of a command (R19, R94): mnemonic, descriptor, operands. No step reads it. -/

namespace Sys2Proof.Machine

/-- The mnemonic of a command (R19, R90). -/
def mnemonic : Instr → List Char
  | .get _ => "GET".toList
  | .toInt _ _ => "TOINT".toList
  | .fromInt _ _ _ => "FROMINT".toList
  | .toLong _ _ => "TOLONG".toList
  | .toLongP _ _ _ => "TOLONGP".toList
  | .fromLong _ _ _ => "FROMLONG".toList
  | .toFloat _ _ => "TOFLOAT".toList
  | .fromFloat _ _ _ => "FROMFLOAT".toList
  | .toDouble _ _ => "TODOUBLE".toList
  | .fromDouble _ _ _ => "FROMDOUBLE".toList
  | .toBitStr _ _ _ => "TOBITSTR".toList
  | .toLastBitStr _ _ _ => "TOLASTBITSTR".toList
  | .fromBitStr _ _ => "FROMBITSTR".toList
  | .reverse _ _ _ => "REVERSE".toList
  | .reverseLeft _ _ _ => "REVERSELEFT".toList
  | .bitStr2Long _ _ => "BITSTR2LONG".toList

/-- The descriptor suffix `.ord` (R94). -/
def suffix : Desc → List Char
  | .l => ".L".toList
  | .b => ".B".toList
  | .x2 => ".X2".toList
  | .x3 => ".X3".toList

/-- The suffix of an order-independent command, which may be omitted where it is 00 (R94). -/
def optionalSuffix (d : Desc) : List Char := if d = .l then [] else suffix d

/-- One hexadecimal digit. -/
def hexDigit (n : Nat) : Char := "0123456789ABCDEF".toList.getD n '0'

/-- A value as a `0x` number of `w` digits. -/
def hex (w v : Nat) : List Char := "0x".toList ++ (List.range w).reverse.map fun i => hexDigit (v / 16 ^ i % 16)

/-- A 64-bit value as a `0x` number without leading zeros. -/
def hex64 (v : Word64) : List Char := hex (max 1 ((Nat.log2 v.toNat + 4) / 4)) v.toNat

/-- The decimal digits of a number below 10 ^ `w`, without leading zeros. -/
def decimal : Nat → Nat → List Char
  | 0, _ => []
  | w + 1, n => (if n < 10 then [] else decimal w (n / 10)) ++ [hexDigit (n % 10)]

/-- An offset as a signed decimal number (R79). -/
def signedDecimal (off : Word32) : List Char :=
  if off.toInt < 0 then '-' :: decimal 10 off.toInt.natAbs else decimal 10 off.toInt.natAbs

/-- The operand `off=`. -/
def offOperand (off : Word32) : List Char := " off=".toList ++ signedDecimal off

/-- The operands `v64=` and `n=`. -/
def countOperands (n : Byte) (v : Word64) : List Char := " v64=".toList ++ hex64 v ++ ", n=".toList ++ decimal 3 n.toNat

/-- The operand `str=` as a quoted string, one character for each 8-bit code, the first character first. R94 does not say
how a code that is a quotation mark or not printable stands inside the quotes; DESIGN CHOICE (log 13): every code is
written as the character of that number, and none is escaped. -/
def strOperand (cs : List Byte) : List Char := " str=\"".toList ++ cs.map (fun c => Char.ofNat c.toNat) ++ ['"']

/-- The command as R94 writes it. -/
def sourceForm (i : Instr) : List Char :=
  mnemonic i ++
    match i with
    | .get d => suffix d
    | .toInt d off => suffix d ++ offOperand off
    | .fromInt d off v => suffix d ++ offOperand off ++ ", v32=".toList ++ hex 8 v.toNat
    | .toLong d off => suffix d ++ offOperand off
    | .toLongP d hi lo => suffix d ++ " hi=".toList ++ hex 8 hi.toNat ++ ", lo=".toList ++ hex 8 lo.toNat
    | .fromLong d off v => suffix d ++ offOperand off ++ ", v64=".toList ++ hex64 v
    | .toFloat d off => suffix d ++ offOperand off
    | .fromFloat d off v => suffix d ++ offOperand off ++ ", v32=".toList ++ hex 8 v.toNat
    | .toDouble d off => suffix d ++ offOperand off
    | .fromDouble d off v => suffix d ++ offOperand off ++ ", v64=".toList ++ hex64 v
    | .toBitStr d n v => optionalSuffix d ++ countOperands n v
    | .toLastBitStr d n v => optionalSuffix d ++ countOperands n v
    | .fromBitStr d cs => suffix d ++ strOperand cs
    | .reverse d n v => optionalSuffix d ++ countOperands n v
    | .reverseLeft d n v => optionalSuffix d ++ countOperands n v
    | .bitStr2Long d cs => optionalSuffix d ++ strOperand cs

end Sys2Proof.Machine
end

