-- ==== Sys2Proof/Tests/Slice0.lean ====
section
/-! SUPPORT. Tests on the spec's own vectors (95_test_vectors.md, named by their ids), and a witness for the hypotheses
of every statement. Expected values come from the spec. -/

namespace Sys2Proof.Tests

open Sys2Proof Sys2Proof.Machine

/-- The response word to one command on a buffer, and the buffer afterwards. -/
def answer (buf : List Byte) (c : Bits) : Option (List Bits × List Byte) :=
  match step { State.launch buf with pending := [.command c] } with
  | .next t => some (t.responses.map Response.word, t.bytes)
  | .fault _ => none
  | .refused _ => none

/-- The buffer of section 3.2 of the vectors. -/
def ten : List Byte := [0x10#8, 0x32#8, 0x54#8, 0x76#8, 0x98#8, 0xBA#8, 0xDC#8, 0xFE#8, 0x11#8, 0x22#8]

/-- Ten bytes AA, the buffer of V40-12 to V40-17. -/
def aa : List Byte := List.replicate 10 0xAA#8

/-- Eight bytes 00. -/
def zero8 : List Byte := List.replicate 8 0x00#8

/-! ### Well-formedness: the one check -/

theorem wf_strings (d : Desc) (cs : List Byte) :
    ((Instr.fromBitStr d cs).wf = decide (cs.length ≤ 65535)) ∧
      (Instr.bitStr2Long d cs).wf = decide (cs.length ≤ 65535) := ⟨rfl, rfl⟩

theorem test_wf_refuses_long_string (d : Desc) :
    (Instr.fromBitStr d (List.replicate 65536 0x30#8)).wf = false ∧
      (Instr.bitStr2Long d (List.replicate 65536 0x30#8)).wf = false := by
  simp only [wf_strings, List.length_replicate]
  decide

theorem test_wf_admits_longest_string (d : Desc) :
    (Instr.fromBitStr d (List.replicate 65535 0x30#8)).wf = true ∧
      (Instr.bitStr2Long d (List.replicate 65535 0x30#8)).wf = true := by
  simp only [wf_strings, List.length_replicate]
  decide

/-! ### Decoding: one word of the spec for every command -/

theorem test_decode_get : decode ⟨8, 0x10#8⟩ = .ok (.get .b) := by decide
theorem test_decode_toInt : decode ⟨40, 0x0000000611#40⟩ = .ok (.toInt .b 6#32) := by decide
theorem test_decode_fromInt :
    decode ⟨72, 0xDEADBEEF0000000602#72⟩ = .ok (.fromInt .l 6#32 0xDEADBEEF#32) := by decide
theorem test_decode_toLong : decode ⟨40, 0x0000000213#40⟩ = .ok (.toLong .b 2#32) := by decide
theorem test_decode_toLongP :
    decode ⟨72, 0x112233445566778824#72⟩ = .ok (.toLongP .x2 0x11223344#32 0x55667788#32) := by decide
theorem test_decode_fromLong :
    decode ⟨104, 0x0123456789ABCDEF0000000215#104⟩ = .ok (.fromLong .b 2#32 0x0123456789ABCDEF#64) := by decide
theorem test_decode_toFloat : decode ⟨40, 0x0000000416#40⟩ = .ok (.toFloat .b 4#32) := by decide
theorem test_decode_fromFloat :
    decode ⟨72, 0x7FC000010000000417#72⟩ = .ok (.fromFloat .b 4#32 0x7FC00001#32) := by decide
theorem test_decode_toDouble : decode ⟨40, 0x0000000008#40⟩ = .ok (.toDouble .l 0#32) := by decide
theorem test_decode_fromDouble :
    decode ⟨104, 0x3FF00000000000000000000309#104⟩ = .ok (.fromDouble .l 3#32 0x3FF0000000000000#64) := by decide
theorem test_decode_toBitStr :
    decode ⟨80, 0xA000000000000000040A#80⟩ = .ok (.toBitStr .l 4#8 0xA000000000000000#64) := by decide
theorem test_decode_toLastBitStr :
    decode ⟨80, 0x000000000000FF000C0B#80⟩ = .ok (.toLastBitStr .l 12#8 0xFF00#64) := by decide
theorem test_decode_fromBitStr :
    decode ⟨48, 0x32313000031C#48⟩ = .ok (.fromBitStr .b [0x30#8, 0x31#8, 0x32#8]) := by decide
theorem test_decode_reverse : decode ⟨80, 0x00000000000000B5081D#80⟩ = .ok (.reverse .b 8#8 0xB5#64) := by decide
theorem test_decode_reverseLeft :
    decode ⟨80, 0x123456789ABCDEF0080E#80⟩ = .ok (.reverseLeft .l 8#8 0x123456789ABCDEF0#64) := by decide
theorem test_decode_bitStr2Long :
    decode ⟨56, 0x3031303100040F#56⟩ = .ok (.bitStr2Long .l [0x31#8, 0x30#8, 0x31#8, 0x30#8]) := by decide

/-- V30-1, V30-2, V30-5, V30-9, V30-10: answered Illegal, the buffer as it was. -/
theorem test_illegal :
    answer ten ⟨8, 0x40#8⟩ = some ([⟨8, 0x05#8⟩], ten) ∧ answer ten ⟨8, 0x80#8⟩ = some ([⟨8, 0x05#8⟩], ten) ∧
      answer ten ⟨40, 0#40⟩ = some ([⟨8, 0x05#8⟩], ten) ∧ answer ten ⟨0, 0#0⟩ = some ([⟨8, 0x05#8⟩], ten) ∧
      answer ten ⟨40, 0xFFFFFFFF41#40⟩ = some ([⟨8, 0x05#8⟩], ten) := by decide

/-- V30-7, V30-8: a string shorter and one longer than `SLEN` says. -/
theorem test_illegal_string_length :
    answer ten ⟨40, 0x313000030F#40⟩ = some ([⟨8, 0x05#8⟩], ten) ∧
      answer ten ⟨48, 0x31303100020F#48⟩ = some ([⟨8, 0x05#8⟩], ten) := by decide

/-! ### Commands: the spec's vectors -/

/-- V44-1 to V44-4. -/
theorem test_get :
    answer [] ⟨8, 0x00#8⟩ = some ([⟨40, 0x0000000000#40⟩], []) ∧
      answer [] ⟨8, 0x10#8⟩ = some ([⟨40, 0x0000000100#40⟩], []) ∧
      answer [] ⟨8, 0x20#8⟩ = some ([⟨40, 0x0000000000#40⟩], []) ∧
      answer [] ⟨8, 0x30#8⟩ = some ([⟨40, 0x0000000000#40⟩], []) := by decide

/-- V40-24, V40-25: the last legal offset. -/
theorem test_toInt :
    answer ten ⟨40, 0x0000000601#40⟩ = some ([⟨40, 0x2211FEDC00#40⟩], ten) ∧
      answer ten ⟨40, 0x0000000611#40⟩ = some ([⟨40, 0xDCFE112200#40⟩], ten) := by decide

/-- V40-40, V40-42, V40-46. -/
theorem test_toInt_bounds :
    answer ten ⟨40, 0x0000000701#40⟩ = some ([⟨8, 0x01#8⟩], ten) ∧
      answer ten ⟨40, 0xFFFFFFFF01#40⟩ = some ([⟨8, 0x01#8⟩], ten) ∧
      answer ten ⟨40, 0x7FFFFFFF11#40⟩ = some ([⟨8, 0x01#8⟩], ten) := by decide

/-- V40-12, V40-13. -/
theorem test_fromInt :
    answer aa ⟨72, 0xDEADBEEF0000000602#72⟩ =
      some ([⟨8, 0#8⟩], [0xAA#8, 0xAA#8, 0xAA#8, 0xAA#8, 0xAA#8, 0xAA#8, 0xEF#8, 0xBE#8, 0xAD#8, 0xDE#8]) ∧
      answer aa ⟨72, 0x000000010000000312#72⟩ =
        some ([⟨8, 0#8⟩], [0xAA#8, 0xAA#8, 0xAA#8, 0x00#8, 0x00#8, 0x00#8, 0x01#8, 0xAA#8, 0xAA#8, 0xAA#8]) := by
  decide

/-- V40-44 and step 6 of P2. -/
theorem test_fromInt_bounds :
    answer ten ⟨72, 0xDEADBEEF0000000702#72⟩ = some ([⟨8, 0x01#8⟩], ten) ∧
      answer ten ⟨72, 0x00000001FFFFFFFF02#72⟩ = some ([⟨8, 0x01#8⟩], ten) := by decide

/-- V40-28, V40-29. -/
theorem test_toLong :
    answer ten ⟨40, 0x0000000103#40⟩ = some ([⟨72, 0x11FEDCBA9876543200#72⟩], ten) ∧
      answer ten ⟨40, 0x0000000213#40⟩ = some ([⟨72, 0x547698BADCFE112200#72⟩], ten) := by decide

/-- V40-41, V40-47. -/
theorem test_toLong_bounds :
    answer ten ⟨40, 0x0000000313#40⟩ = some ([⟨8, 0x01#8⟩], ten) ∧
      answer ten ⟨40, 0xFFFFFFF803#40⟩ = some ([⟨8, 0x01#8⟩], ten) := by decide

/-- V40-30, V40-31, V40-34, V40-37. -/
theorem test_toLongP :
    answer [] ⟨72, 0x112233445566778804#72⟩ = some ([⟨72, 0x112233445566778800#72⟩], []) ∧
      answer [] ⟨72, 0x112233445566778814#72⟩ = some ([⟨72, 0x556677881122334400#72⟩], []) ∧
      answer [] ⟨72, 0x00000001FFFFFFFF04#72⟩ = some ([⟨72, 0x00000001FFFFFFFF00#72⟩], []) ∧
      answer [] ⟨72, 0x800000000000000014#72⟩ = some ([⟨72, 0x000000008000000000#72⟩], []) := by decide

/-- V40-14, V40-15. -/
theorem test_fromLong :
    answer aa ⟨104, 0x0123456789ABCDEF0000000105#104⟩ =
      some ([⟨8, 0#8⟩], [0xAA#8, 0xEF#8, 0xCD#8, 0xAB#8, 0x89#8, 0x67#8, 0x45#8, 0x23#8, 0x01#8, 0xAA#8]) ∧
      answer aa ⟨104, 0x0123456789ABCDEF0000000215#104⟩ =
        some ([⟨8, 0#8⟩], [0xAA#8, 0xAA#8, 0x01#8, 0x23#8, 0x45#8, 0x67#8, 0x89#8, 0xAB#8, 0xCD#8, 0xEF#8]) := by
  decide

/-- V40-45. -/
theorem test_fromLong_bounds :
    answer ten ⟨104, 0x00000000000000000000000315#104⟩ = some ([⟨8, 0x01#8⟩], ten) := by decide

/-- Steps 4 and 5 of P4: a NaN payload and a negative zero come back as they stand. -/
theorem test_toFloat :
    (answer [0x7F#8, 0xC0#8, 0x00#8, 0x01#8, 0x00#8, 0x00#8, 0x00#8, 0x80#8] ⟨40, 0x0000000016#40⟩).map (·.1) =
      some [⟨40, 0x7FC0000100#40⟩] ∧
    (answer [0x7F#8, 0xC0#8, 0x00#8, 0x01#8, 0x00#8, 0x00#8, 0x00#8, 0x80#8] ⟨40, 0x0000000406#40⟩).map (·.1) =
      some [⟨40, 0x8000000000#40⟩] := by decide

/-- V40-48. -/
theorem test_toFloat_bounds : answer ten ⟨40, 0x0000000806#40⟩ = some ([⟨8, 0x01#8⟩], ten) := by decide

/-- V41-4, V41-5: a quiet and a signalling NaN. -/
theorem test_fromFloat :
    answer zero8 ⟨72, 0x7FC000010000000417#72⟩ =
      some ([⟨8, 0#8⟩], [0x00#8, 0x00#8, 0x00#8, 0x00#8, 0x7F#8, 0xC0#8, 0x00#8, 0x01#8]) ∧
      answer zero8 ⟨72, 0x7F8000010000000007#72⟩ =
        some ([⟨8, 0#8⟩], [0x01#8, 0x00#8, 0x80#8, 0x7F#8, 0x00#8, 0x00#8, 0x00#8, 0x00#8]) := by decide

/-- Steps 7 and 8 of P4. -/
theorem test_toDouble :
    (answer [0x7F#8, 0xC0#8, 0x00#8, 0x01#8, 0x00#8, 0x00#8, 0x00#8, 0x80#8] ⟨40, 0x0000000018#40⟩).map (·.1) =
      some [⟨72, 0x7FC000010000008000#72⟩] ∧
    (answer [0x7F#8, 0xC0#8, 0x00#8, 0x01#8, 0x00#8, 0x00#8, 0x00#8, 0x80#8] ⟨40, 0x0000000008#40⟩).map (·.1) =
      some [⟨72, 0x800000000100C07F00#72⟩] := by decide

/-- V41-11, V41-12. -/
theorem test_fromDouble :
    answer zero8 ⟨104, 0x7FF80000000000010000000009#104⟩ =
      some ([⟨8, 0#8⟩], [0x01#8, 0x00#8, 0x00#8, 0x00#8, 0x00#8, 0x00#8, 0xF8#8, 0x7F#8]) ∧
      answer zero8 ⟨104, 0x7FF00000000000010000000019#104⟩ =
        some ([⟨8, 0#8⟩], [0x7F#8, 0xF0#8, 0x00#8, 0x00#8, 0x00#8, 0x00#8, 0x00#8, 0x01#8]) := by decide

/-- V40-49. -/
theorem test_fromDouble_bounds :
    answer ten ⟨104, 0x3FF00000000000000000000309#104⟩ = some ([⟨8, 0x01#8⟩], ten) := by decide

/-- V43-7, V43-8, V43-9. -/
theorem test_toBitStr :
    answer [] ⟨80, 0x123456789ABCDEF0100A#80⟩ =
      some ([⟨152, 0x30303130313130303031303031303030001000#152⟩], []) ∧
      answer [] ⟨80, 0xFFFFFFFFFFFFFFFF000A#80⟩ = some ([⟨24, 0x000000#24⟩], []) ∧
      answer [] ⟨80, 0x0000000000000000410A#80⟩ = some ([⟨8, 0x03#8⟩], []) := by decide +kernel

/-- V43-16, V43-18, V43-19. -/
theorem test_toLastBitStr :
    answer [] ⟨80, 0x123456789ABCDEF0100B#80⟩ =
      some ([⟨152, 0x30303030313131313031313131303131001000#152⟩], []) ∧
      answer [] ⟨80, 0x0000000000000005000B#80⟩ = some ([⟨24, 0x000000#24⟩], []) ∧
      answer [] ⟨80, 0x0000000000000005C80B#80⟩ = some ([⟨8, 0x03#8⟩], []) := by decide +kernel

/-- V43-44, V43-40: under both orders; the empty string. -/
theorem test_fromBitStr :
    answer [] ⟨96, 0x31303030303031303100091C#96⟩ = some ([⟨40, 0x80A0000200#40⟩], []) ∧
      answer [] ⟨96, 0x31303030303031303100090C#96⟩ = some ([⟨40, 0xA080000200#40⟩], []) ∧
      answer [] ⟨24, 0x00001C#24⟩ = some ([⟨24, 0x000000#24⟩], []) := by decide +kernel

/-- V43-48. -/
theorem test_fromBitStr_badChar :
    answer [] ⟨48, 0x32313000031C#48⟩ = some ([⟨8, 0x04#8⟩], []) ∧
      answer [] ⟨48, 0x32313000030C#48⟩ = some ([⟨8, 0x04#8⟩], []) := by decide

/-- V42-6, V42-12, V42-8. -/
theorem test_reverse :
    answer [] ⟨80, 0x00000000000000F1040D#80⟩ = some ([⟨72, 0x000000000000000800#72⟩], []) ∧
      answer [] ⟨80, 0x123456789ABCDEF0400D#80⟩ = some ([⟨72, 0x0F7B3D591E6A2C4800#72⟩], []) ∧
      answer [] ⟨80, 0xFFFFFFFFFFFFFFFF000D#80⟩ = some ([⟨72, 0x000000000000000000#72⟩], []) := by decide +kernel

/-- V42-21, V42-22. -/
theorem test_reverse_range :
    answer [] ⟨80, 0x0000000000000001410D#80⟩ = some ([⟨8, 0x03#8⟩], []) ∧
      answer [] ⟨80, 0x0000000000000000FF0D#80⟩ = some ([⟨8, 0x03#8⟩], []) := by decide

/-- V42-33, V42-39, V42-9. -/
theorem test_reverseLeft :
    answer [] ⟨80, 0xB0000000000000FF040E#80⟩ = some ([⟨72, 0xD00000000000000000#72⟩], []) ∧
      answer [] ⟨80, 0x123456789ABCDEF0080E#80⟩ = some ([⟨72, 0x480000000000000000#72⟩], []) ∧
      answer [] ⟨80, 0xFFFFFFFFFFFFFFFF000E#80⟩ = some ([⟨72, 0x000000000000000000#72⟩], []) := by decide +kernel

/-- V42-42. -/
theorem test_reverseLeft_range : answer [] ⟨80, 0x8000000000000000410E#80⟩ = some ([⟨8, 0x03#8⟩], []) := by decide

/-- X2 (GH), V43-21. -/
theorem test_bitStr2Long :
    answer [] ⟨56, 0x3031303100040F#56⟩ = some ([⟨72, 0xA00000000000000000#72⟩], []) ∧
      answer [] ⟨24, 0x00000F#24⟩ = some ([⟨72, 0x000000000000000000#72⟩], []) := by decide +kernel

/-- X3 (GH), V43-29, V43-30: InvalidInput on 65 characters, one of them bad or not; BadChar. -/
theorem test_bitStr2Long_faults :
    answer [] (countedBytes 0x0F#8 (List.replicate 65 0x30#8)) = some ([⟨8, 0x02#8⟩], []) ∧
      answer [] (countedBytes 0x0F#8 (List.replicate 64 0x30#8 ++ [0x78#8])) = some ([⟨8, 0x02#8⟩], []) ∧
      answer [] ⟨48, 0x32313000030F#48⟩ = some ([⟨8, 0x04#8⟩], []) := by decide +kernel

/-- The rendering of the bytes of V43-44 back, as section 3.10 gives it. -/
theorem test_render :
    render .big [0xA0#8, 0x80#8] = render .little [0x80#8, 0xA0#8] ∧
      render .big [0xA0#8, 0x80#8] =
        [0x31#8, 0x30#8, 0x31#8, 0x30#8, 0x30#8, 0x30#8, 0x30#8, 0x30#8,
         0x31#8, 0x30#8, 0x30#8, 0x30#8, 0x30#8, 0x30#8, 0x30#8, 0x30#8] := by decide +kernel

/-- What the host reads of a buffer between commands (R34). -/
theorem test_hostByte :
    (State.launch ten).hostByte 9 = some 0x22#8 ∧ (State.launch ten).hostByte 10 = none := by decide

/-- R11: the longest string's bytes are as many as a response carries at most. -/
theorem test_bytesMax : (Config.strMax + 7) / 8 = Config.bytesMax := by decide

/-- The examples of R94, and a negative offset (P2, step 6). -/
theorem test_sourceForm :
    sourceForm (.fromInt .l 0#32 1#32) = "FROMINT.L off=0, v32=0x00000001".toList ∧
      sourceForm (.toLongP .b 0x11223344#32 0x55667788#32) = "TOLONGP.B hi=0x11223344, lo=0x55667788".toList ∧
      sourceForm (.reverse .l 64#8 1#64) = "REVERSE v64=0x1, n=64".toList ∧
      sourceForm (.bitStr2Long .l [0x31#8, 0x30#8, 0x31#8, 0x30#8]) = "BITSTR2LONG str=\"1010\"".toList ∧
      sourceForm (.get .x3) = "GET.X3".toList ∧
      sourceForm (.fromInt .l 0xFFFFFFFF#32 1#32) = "FROMINT.L off=-1, v32=0x00000001".toList := by decide +kernel

/-! ### The opcode table's words -/

theorem test_decodeTableWord :
    decodeTableWord 40 0x0000000611 = some (.toInt .b 6#32) ∧
      decodeTableWord 24 0x00000F = some (.bitStr2Long .l []) ∧ decodeTableWord 8 0x01 = some (.toInt .l 0#32) ∧
      decodeTableWord 8 0x41 = none := by decide

theorem test_withFetchWord :
    (match step (State.reset.withFetchWord 80 0x000000000000000B040D) with
      | .next t => t.responses
      | .fault _ => []
      | .refused _ => []) = [.res64 0xD#64] := by decide +kernel

/-! ### Witnesses

For every statement that has hypotheses, concrete states and operands that meet them, each clause at a boundary of its
range. The name after `test_hyp_` is the statement's. -/

/-- The launch state on `ten` with events to come. -/
def pendingTen (es : List HostEvent) : State := { State.launch ten with pending := es }

theorem test_hyp_DecodeOfEncodeIsIdentity :
    (Instr.get .x3).wf = true ∧ (Instr.bitStr2Long .b [0x32#8]).wf = true ∧ (Instr.fromBitStr .l []).wf = true := by
  decide

theorem test_hyp_EncodeOfDecodeIsIdentity :
    decode ⟨8, 0x10#8⟩ = .ok (.get .b) ∧ decode ⟨24, 0x00001C#24⟩ = .ok (.fromBitStr .b []) := by decide

/-- A reserved header bit; a string of another length; the empty vector. The last conjunct: a legal one. -/
theorem test_hyp_IllegalVectorsAreAnsweredIllegal :
    ((pendingTen [.command ⟨8, 0x40#8⟩]).pending = .command ⟨8, 0x40#8⟩ :: [] ∧ ¬ legalVector ⟨8, 0x40#8⟩) ∧
      ¬ legalVector ⟨48, 0x31303100020F#48⟩ ∧ ¬ legalVector ⟨0, 0#0⟩ ∧ legalVector ⟨56, 0x3031303100040F#56⟩ := by
  refine ⟨⟨rfl, fun h => absurd h.2.1 (by decide)⟩, fun h => ?_, fun h => absurd h.1 (by decide), by decide, by decide,
    (by decide : 24 ≤ 56 ∧ 56 = 24 + 8 * 4)⟩
  have h' : 24 ≤ 48 ∧ 48 = 24 + 8 * 2 := h.2.2
  omega

/-- V43-20 and V43-40: a string of four characters and an empty one, for opcodes 15 and 12. -/
theorem test_hyp_StringVectorsDecodeToTheirCharacters :
    isFormatS ⟨56, 0x3031303100040F#56⟩ .l 15#4 [0x31#8, 0x30#8, 0x31#8, 0x30#8] ∧
      isFormatS ⟨24, 0x00001C#24⟩ .b 12#4 [] := by
  constructor <;> unfold isFormatS <;> decide

theorem test_hyp_SelectorIsBigOnlyForDescriptor01 :
    decode ⟨8, 0x00#8⟩ = .ok (.get .l) ∧ decode ⟨8, 0x10#8⟩ = .ok (.get .b) ∧ decode ⟨8, 0x20#8⟩ = .ok (.get .x2) ∧
      decode ⟨8, 0x30#8⟩ = .ok (.get .x3) := by decide

theorem test_hyp_StepRunsTheDecodedCommand :
    (pendingTen [.command ⟨40, 0x0000000611#40⟩, .reset]).pending = .command ⟨40, 0x0000000611#40⟩ :: [.reset] ∧
      decode ⟨40, 0x0000000611#40⟩ = .ok (.toInt .b 6#32) := by decide

theorem test_hyp_EveryCommandIsAnsweredOnce :
    (pendingTen [.command ⟨8, 0x40#8⟩, .reset]).pending = .command ⟨8, 0x40#8⟩ :: [.reset] := by decide

/-- A list with a success, a fault and an illegal vector; and the empty list. -/
theorem test_hyp_RunAnswersEveryCommand :
    (pendingTen [.command ⟨8, 0x10#8⟩, .command ⟨40, 0x0000000701#40⟩, .command ⟨0, 0#0⟩]).pending =
      [⟨8, 0x10#8⟩, ⟨40, 0x0000000701#40⟩, ⟨0, 0#0⟩].map HostEvent.command ∧
      (pendingTen []).pending = [].map HostEvent.command := by decide

/-- A rebind, then a write to the last byte of the new buffer, then a command and a reset. -/
theorem test_hyp_LawfulHostRunNeverStops :
    hostScript (pendingTen [.bind [1#8, 2#8], .write 1 0xFF#8, .command ⟨8, 0x10#8⟩, .reset]).len
        (pendingTen [.bind [1#8, 2#8], .write 1 0xFF#8, .command ⟨8, 0x10#8⟩, .reset]).pending = true ∧
      (pendingTen [.bind [1#8, 2#8], .write 1 0xFF#8, .command ⟨8, 0x10#8⟩, .reset]).Inv = true := by decide

/-- A store of zeros over listed bytes, and a step with nothing pending. -/
theorem test_hyp_EveryStepKeepsBufferCanonical :
    ((pendingTen [.command ⟨72, 0x000000000000000602#72⟩]).Inv = true ∧
      step (pendingTen [.command ⟨72, 0x000000000000000602#72⟩]) =
        .next { len := 10, mem := [(0, 0x10#8), (1, 0x32#8), (2, 0x54#8), (3, 0x76#8), (4, 0x98#8), (5, 0xBA#8)],
                pending := [], responses := [.done] }) ∧
      State.reset.Inv = true ∧ step State.reset = .next State.reset :=
  ⟨⟨by decide, rfl⟩, by decide, rfl⟩

/-- Two buffers that differ outside the span only, for a load and for a store. -/
theorem test_hyp_CommandDependsOnItsSpanOnly :
    (State.launch [1#8, 2#8, 3#8, 4#8, 5#8]).len = (State.launch [1#8, 2#8, 3#8, 4#8, 6#8]).len ∧
      (∀ k, touches (.toInt .b 0#32) k →
        (State.launch [1#8, 2#8, 3#8, 4#8, 5#8]).mem.get k = (State.launch [1#8, 2#8, 3#8, 4#8, 6#8]).mem.get k) ∧
      ∀ k, touches (.fromInt .l 0#32 7#32) k →
        (State.launch [1#8, 2#8, 3#8, 4#8, 5#8]).mem.get k = (State.launch [1#8, 2#8, 3#8, 4#8, 6#8]).mem.get k := by
  have key : ∀ k, k < 4 →
      (State.launch [1#8, 2#8, 3#8, 4#8, 5#8]).mem.get k = (State.launch [1#8, 2#8, 3#8, 4#8, 6#8]).mem.get k := by
    decide
  refine ⟨rfl, ?_, ?_⟩ <;>
  · rintro k ⟨off, w, h, -, h2⟩
    cases h
    exact key k (by simpa using h2)

/-- Each fault's condition at its boundary, and one command of every kind that meets none. -/
theorem test_hyp_CommandFaultsExactlyWhenItsRuleSays :
    faultCondition (.toInt .l 7#32) 10 .bounds ∧ faultCondition (.fromLong .l 0xFFFFFFFF#32 0#64) 10 .bounds ∧
      faultCondition (.reverse .l 65#8 0#64) 10 .range ∧
      faultCondition (.bitStr2Long .l (List.replicate 65 0x32#8)) 10 .invalidInput ∧
      faultCondition (.bitStr2Long .l [0x32#8]) 10 .badChar ∧ faultCondition (.fromBitStr .l [0x30#8, 0x32#8]) 10 .badChar ∧
      (∀ f, ¬ faultCondition (.toInt .l 6#32) 10 f) ∧ (∀ f, ¬ faultCondition (.reverse .l 64#8 0#64) 10 f) ∧
      (∀ f, ¬ faultCondition (.fromBitStr .l [0x30#8, 0x31#8]) 10 f) ∧ ∀ f, ¬ faultCondition (.get .l) 10 f := by
  refine ⟨?_, ?_, ?_, ?_, ?_, ?_, ?_, ?_, ?_, ?_⟩
  · exact ⟨rfl, by unfold spanFits; decide⟩
  · exact ⟨rfl, by unfold spanFits; decide⟩
  · exact ⟨rfl, by decide⟩
  · exact .inl ⟨rfl, by decide⟩
  · exact .inr ⟨rfl, by decide, by unfold isCharCode; decide⟩
  · exact ⟨rfl, by unfold isCharCode; decide⟩
  · exact fun f h => h.2 (by unfold spanFits; decide)
  · exact fun f h => absurd h.2 (by decide)
  · exact fun f h => absurd h.2 (by unfold isCharCode; decide)
  · exact fun f h => h

/-- Two writes side by side; two reads of one span; a write and a command without a span. -/
theorem test_hyp_DisjointCommandsCommute :
    (∀ k, touches (.fromInt .l 0#32 1#32) k → touches (.fromLong .b 4#32 2#64) k →
      writesBuffer (.fromInt .l 0#32 1#32) = false ∧ writesBuffer (.fromLong .b 4#32 2#64) = false) ∧
    (∀ k, touches (.toInt .l 0#32) k → touches (.toLong .b 0#32) k →
      writesBuffer (.toInt .l 0#32) = false ∧ writesBuffer (.toLong .b 0#32) = false) ∧
    ∀ k, touches (.fromInt .l 0#32 1#32) k → touches (.get .b) k →
      writesBuffer (.fromInt .l 0#32 1#32) = false ∧ writesBuffer (.get .b) = false := by
  refine ⟨?_, fun _ _ _ => ⟨rfl, rfl⟩, ?_⟩
  · rintro k ⟨off, w, h, -, h2⟩ ⟨off', w', h', h3, -⟩
    cases h
    cases h'
    simp at h2 h3
    omega
  · rintro k - ⟨off, w, h, -⟩
    cases h

/-- The last byte of the buffer and the first beyond it; a bind of nothing and one of a byte too many. -/
theorem test_hyp_HostWritesAndBindsTheBuffer :
    ((pendingTen [.write 9 0xFF#8]).pending = .write 9 0xFF#8 :: [] ∧ 9 < (pendingTen [.write 9 0xFF#8]).len) ∧
    ((pendingTen [.write 10 0xFF#8]).pending = .write 10 0xFF#8 :: [] ∧ (pendingTen [.write 10 0xFF#8]).len ≤ 10) ∧
    ((pendingTen [.bind []]).pending = .bind [] :: [] ∧ ([] : List Byte).length ≤ 2147483647) ∧
    ((pendingTen [.bind (List.replicate 2147483648 0#8)]).pending = .bind (List.replicate 2147483648 0#8) :: [] ∧
      2147483647 < (List.replicate 2147483648 0#8).length) := by
  refine ⟨by decide, by decide, by decide, rfl, ?_⟩
  rw [List.length_replicate]
  decide

theorem test_hyp_ResetEventChangesNothing : (pendingTen [.reset]).pending = .reset :: [] := by decide

theorem test_hyp_EveryLaunchIsReachedFromReset :
    ([] : List Byte).length ≤ 2147483647 ∧ ten.length ≤ 2147483647 := by decide

/-- Each pseudo-form with a fresh buffer that holds something else; and a nonzero offset on buffers of 4 and 8 bytes. -/
theorem test_hyp_FreshBufferFormsOverwriteTheWholeBuffer :
    ([9#8, 9#8, 9#8, 9#8].length = 4 ∧
      (pendingTen (withFreshBuffer [9#8, 9#8, 9#8, 9#8] (pseudoFromInt .b 1#32))).pending =
        withFreshBuffer [9#8, 9#8, 9#8, 9#8] (pseudoFromInt .b 1#32) ++ []) ∧
    (pendingTen (withFreshBuffer [9#8, 9#8, 9#8, 9#8] (pseudoFromFloat .l 1#32))).pending =
      withFreshBuffer [9#8, 9#8, 9#8, 9#8] (pseudoFromFloat .l 1#32) ++ [] ∧
    (zero8.length = 8 ∧ (pendingTen (withFreshBuffer zero8 (pseudoFromLong .b 1#64))).pending =
      withFreshBuffer zero8 (pseudoFromLong .b 1#64) ++ []) ∧
    (pendingTen (withFreshBuffer zero8 (pseudoFromDouble .l 1#64))).pending =
      withFreshBuffer zero8 (pseudoFromDouble .l 1#64) ++ [] ∧
    ((State.launch [9#8, 9#8, 9#8, 9#8]).len = 4 ∧ (1#32 : Word32) ≠ 0#32) ∧
    ((State.launch zero8).len = 8 ∧ (0xFFFFFFFF#32 : Word32) ≠ 0#32) := by decide

theorem test_hyp_ResponseWordsHaveTheirFormat :
    ([] : List Byte).length ≤ 65535 ∧ (List.replicate 65535 0x30#8).length ≤ 65535 := by
  rw [List.length_replicate]
  decide

/-- The admitted and the excluded offsets of a 4-byte access to ten bytes: the hypotheses of
ToIntCombinesFourBytes, FromIntWritesFourBytes, ToFloatAnswersTheRawPattern, FromFloatWritesTheRawPattern. -/
theorem test_hyp_four_byte_spans :
    (0 ≤ (0#32).toInt ∧ (0#32).toInt + 4 ≤ (State.launch ten).len) ∧
    (0 ≤ (6#32).toInt ∧ (6#32).toInt + 4 ≤ (State.launch ten).len) ∧
    ((7#32).toInt < 0 ∨ ((State.launch ten).len : Int) < (7#32).toInt + 4) ∧
    ((0xFFFFFFFF#32).toInt < 0 ∨ ((State.launch ten).len : Int) < (0xFFFFFFFF#32).toInt + 4) ∧
    ((0x7FFFFFFF#32).toInt < 0 ∨ ((State.launch ten).len : Int) < (0x7FFFFFFF#32).toInt + 4) := by decide

/-- The admitted and the excluded offsets of an 8-byte access to ten bytes: the hypotheses of
ToLongCombinesEightBytes, FromLongWritesEightBytes, ToDoubleAnswersTheRawPattern, FromDoubleWritesTheRawPattern. -/
theorem test_hyp_eight_byte_spans :
    (0 ≤ (0#32).toInt ∧ (0#32).toInt + 8 ≤ (State.launch ten).len) ∧
    (0 ≤ (2#32).toInt ∧ (2#32).toInt + 8 ≤ (State.launch ten).len) ∧
    ((3#32).toInt < 0 ∨ ((State.launch ten).len : Int) < (3#32).toInt + 8) ∧
    ((0xFFFFFFF8#32).toInt < 0 ∨ ((State.launch ten).len : Int) < (0xFFFFFFF8#32).toInt + 8) ∧
    ((0x7FFFFFFF#32).toInt < 0 ∨ ((State.launch ten).len : Int) < (0x7FFFFFFF#32).toInt + 8) := by decide

/-- IntegerRoundTrips and FloatPatternsRoundTrip: both widths at their last offset. -/
theorem test_hyp_round_trips :
    (0 ≤ (6#32).toInt ∧ (6#32).toInt + 4 ≤ (State.launch ten).len) ∧
    (0 ≤ (2#32).toInt ∧ (2#32).toInt + 8 ≤ (State.launch ten).len) := by decide

/-- PairEqualsLongOfTwoInts and LongReadsBackAsTwoInts: the first and the last pair of offsets. -/
theorem test_hyp_offset_pairs :
    ((0 ≤ (0#32).toInt ∧ (0#32).toInt + 8 ≤ (State.launch ten).len) ∧ (4#32).toInt = (0#32).toInt + 4) ∧
    ((0 ≤ (2#32).toInt ∧ (2#32).toInt + 8 ≤ (State.launch ten).len) ∧ (6#32).toInt = (2#32).toInt + 4) := by decide

theorem test_hyp_OrdersWriteReversedBytes :
    select .x3 = .little ∧ select .b = .big ∧
    (0 ≤ (6#32).toInt ∧ (6#32).toInt + 4 ≤ (State.launch ten).len) ∧
    (∃ i, i < 4 ∧ (0x12345678#32).extractLsb' (8 * i) 8 ≠ (0x12345678#32).extractLsb' (8 * (3 - i)) 8) ∧
    (0 ≤ (2#32).toInt ∧ (2#32).toInt + 8 ≤ (State.launch ten).len) ∧
    ∃ i, i < 8 ∧ (0x0123456789ABCDEF#64).extractLsb' (8 * i) 8 ≠ (0x0123456789ABCDEF#64).extractLsb' (8 * (7 - i)) 8 := by
  decide

theorem test_hyp_CrossOrderReadReversesTheBytes :
    select .l ≠ select .b ∧ (0 ≤ (6#32).toInt ∧ (6#32).toInt + 4 ≤ (State.launch ten).len) ∧
    (0 ≤ (2#32).toInt ∧ (2#32).toInt + 8 ≤ (State.launch ten).len) := by decide

/-- Counts at the boundary: the hypotheses of ReverseReversesTheLowestBits, ReverseLeftReversesTheHighestBits,
ToBitStringReportsTheTopBits, ToLastBitStringReportsTheLowestBits, RenderersAtCountZeroAndAbove64,
ReverseShortCircuitIsUnobservable. -/
theorem test_hyp_counts :
    (0#8).toNat ≤ 64 ∧ (64#8).toNat ≤ 64 ∧ 64 < (65#8).toNat ∧ 64 < (255#8).toNat := by decide

/-- Counts 0 and 64, and values that fit: bits above the count clear, bits below 64 - count clear. -/
theorem test_hyp_ReversalTwiceIsTheMaskedValue :
    (0#8).toNat ≤ 64 ∧ (64#8).toNat ≤ 64 ∧ (4#8).toNat ≤ 64 ∧
    (∀ k, (4#8).toNat ≤ k → (0xB#64).getLsbD k = false) ∧
    ∀ k, k < 64 - (4#8).toNat → (0xB000000000000000#64).getLsbD k = false := by
  refine ⟨by decide, by decide, by decide, fun k hk => ?_, by decide⟩
  by_cases h : k < 64
  · exact (by decide : ∀ k, k < 64 → 4 ≤ k → (0xB#64).getLsbD k = false) k h hk
  · exact BitVec.getLsbD_of_ge _ _ (by omega)

/-- ReverseLeftIsShiftedReverse and ReversalReversesTheString: counts 1 and 64, and 0 for the clause on zero. -/
theorem test_hyp_positive_counts :
    (1 ≤ (1#8).toNat ∧ (1#8).toNat ≤ 64) ∧ (1 ≤ (64#8).toNat ∧ (64#8).toNat ≤ 64) ∧ (0#8).toNat ≤ 64 := by decide

/-- 65 characters; 64 with a bad one; 64 good ones; none. -/
theorem test_hyp_BitStringPacksFromTheTop :
    isFormatS ⟨56, 0x3031303100040F#56⟩ .l 15#4 [0x31#8, 0x30#8, 0x31#8, 0x30#8] ∧
    64 < (List.replicate 65 0x30#8).length ∧
    ((List.replicate 64 0x32#8).length ≤ 64 ∧ ∃ x ∈ List.replicate 64 0x32#8, ¬ isCharCode x) ∧
    ((List.replicate 64 0x31#8).length ≤ 64 ∧ ∀ x ∈ List.replicate 64 0x31#8, isCharCode x) ∧
    (([] : List Byte).length ≤ 64 ∧ ∀ x ∈ ([] : List Byte), isCharCode x) := by
  unfold isFormatS isCharCode
  decide

/-- A bad character; eight good ones and one more; none. -/
theorem test_hyp_FromBitStringPacksGroupsOfEight :
    isFormatS ⟨24, 0x00001C#24⟩ .b 12#4 [] ∧
    (∃ x ∈ [0x30#8, 0x31#8, 0x32#8], ¬ isCharCode x) ∧
    (∀ x ∈ List.replicate 9 0x31#8, isCharCode x) ∧ (∀ x ∈ ([] : List Byte), isCharCode x) := by
  unfold isFormatS isCharCode
  decide

theorem test_hyp_FromBitStringRendersBack :
    (∀ x ∈ List.replicate 9 0x31#8, isCharCode x) ∧ ∀ x ∈ ([] : List Byte), isCharCode x := by
  unfold isCharCode
  decide

theorem test_hyp_FromBitStringOrdersAreReversed :
    select .b = .big ∧ select .x2 = .little ∧ ∀ x ∈ List.replicate 9 0x31#8, isCharCode x := by
  unfold isCharCode
  decide

theorem test_hyp_BitStringRoundTrips :
    (64#8).toNat ≤ 64 ∧ (List.replicate 64 0x31#8).length ≤ 64 ∧ ∀ x ∈ List.replicate 64 0x31#8, isCharCode x := by
  unfold isCharCode
  decide

/-- "101011011", whose bytes are AD 80 (steps 8 and 9 of P3), in a buffer of eight under both orders. -/
theorem test_hyp_StringBytesReadAsThePackedLong :
    [0x31#8, 0x30#8, 0x31#8, 0x30#8, 0x31#8, 0x31#8, 0x30#8, 0x31#8, 0x31#8].length ≤ 64 ∧
    (∀ x ∈ [0x31#8, 0x30#8, 0x31#8, 0x30#8, 0x31#8, 0x31#8, 0x30#8, 0x31#8, 0x31#8], isCharCode x) ∧
    ((State.launch [0xAD#8, 0x80#8, 0#8, 0#8, 0#8, 0#8, 0#8, 0#8]).len = 8 ∧
      (State.launch [0xAD#8, 0x80#8, 0#8, 0#8, 0#8, 0#8, 0#8, 0#8]).bytes =
        [0xAD#8, 0x80#8] ++ List.replicate (8 - [0xAD#8, 0x80#8].length) 0#8) ∧
    ((State.launch [0#8, 0#8, 0#8, 0#8, 0#8, 0#8, 0x80#8, 0xAD#8]).len = 8 ∧
      (State.launch [0#8, 0#8, 0#8, 0#8, 0#8, 0#8, 0x80#8, 0xAD#8]).bytes =
        List.replicate (8 - [0x80#8, 0xAD#8].length) 0#8 ++ [0x80#8, 0xAD#8]) := by
  unfold isCharCode
  decide

end Sys2Proof.Tests
end

section
/-! SUPPORT. The invariant of the state (R11, R21, R62) is kept by every event of the host, and so by every step. -/

namespace Sys2Proof.Machine

theorem State.inv_iff (s : State) :
    s.Inv = true ↔ s.mem.wf = true ∧ s.mem.within s.len = true ∧ s.len ≤ Config.bufLenMax := by
  simp [State.Inv, and_assoc]

theorem Memory.within_ofBytes (bs : List Byte) : (Memory.ofBytes bs).within bs.length = true :=
  Memory.within_setSpan bs rfl (Nat.zero_add _).le

/-- A step is the oldest event, run on the state without it. -/
theorem step_cons {s : State} {e : HostEvent} {es : List HostEvent} (h : s.pending = e :: es) :
    step s = runEvent e { s with pending := es } := by
  simp [step, takeEvent, h]

theorem hostWrite_next_iff {k : Nat} {b : Byte} {s t : State} :
    hostWrite k b s = .next t ↔ k < s.len ∧ t = { s with mem := s.mem.set k b } := by
  unfold hostWrite
  split <;> simp_all [eq_comm]

theorem hostBind_next_iff {bs : List Byte} {s t : State} :
    hostBind bs s = .next t ↔ bs.length ≤ Config.bufLenMax ∧ t = bindBuffer bs s := by
  unfold hostBind
  split <;> simp_all [eq_comm]

theorem exec_keeps_inv {i : Instr} {s t : State} (hs : s.Inv = true) (h : exec i s = .next t) : t.Inv = true := by
  obtain ⟨m, r, hexec, hwf, hwithin, -, -⟩ := exec_answered i s
  obtain rfl : answered m r s = t := by simpa [hexec] using h
  obtain ⟨hs₁, hs₂, hs₃⟩ := (State.inv_iff s).1 hs
  exact (State.inv_iff _).2 ⟨hwf hs₁, hwithin hs₂, hs₃⟩

theorem runCommand_keeps_inv {c : Bits} {s t : State} (hs : s.Inv = true) (h : runCommand c s = .next t) :
    t.Inv = true := by
  cases hc : decode c with
  | ok i => exact exec_keeps_inv hs (runCommand_ok hc s ▸ h)
  | error e =>
    obtain rfl : raise .illegal s = t := by simpa [runCommand_error hc] using h
    exact hs

theorem hostWrite_keeps_inv {k : Nat} {b : Byte} {s t : State} (hs : s.Inv = true) (h : hostWrite k b s = .next t) :
    t.Inv = true := by
  obtain ⟨hk, rfl⟩ := hostWrite_next_iff.1 h
  obtain ⟨hwf, hwithin, hlen⟩ := (State.inv_iff s).1 hs
  exact (State.inv_iff _).2 ⟨Memory.wf_set k b hwf, Memory.within_set b hwithin hk, hlen⟩

/-- A bound buffer meets the invariant whatever was bound before. -/
theorem hostBind_inv {bs : List Byte} {s t : State} (h : hostBind bs s = .next t) : t.Inv = true := by
  obtain ⟨hlen, rfl⟩ := hostBind_next_iff.1 h
  exact (State.inv_iff _).2 ⟨Memory.wf_ofBytes bs, Memory.within_ofBytes bs, hlen⟩

theorem runEvent_keeps_inv {e : HostEvent} {s t : State} (hs : s.Inv = true) (h : runEvent e s = .next t) :
    t.Inv = true := by
  cases e with
  | command c => exact runCommand_keeps_inv hs h
  | write k b => exact hostWrite_keeps_inv hs h
  | bind bs => exact hostBind_inv h
  | reset =>
    obtain rfl : s = t := Host.Outcome.next.inj h
    exact hs

theorem step_keeps_inv {s t : State} (hs : s.Inv = true) (h : step s = .next t) : t.Inv = true := by
  cases hp : s.pending with
  | nil =>
    obtain rfl : s = t := by simpa [step_nil hp] using h
    exact hs
  | cons e es =>
    rw [step_cons hp] at h
    have hs' : State.Inv { s with pending := es } = true := hs
    exact runEvent_keeps_inv hs' h

/-- Settles O11: each host event keeps the invariant, commands by what `exec_answered` says of the memory they leave. -/
theorem everyStepKeepsBufferCanonical : Obligations.EveryStepKeepsBufferCanonical :=
  fun _ _ => step_keeps_inv

end Sys2Proof.Machine
end

section
/-! SUPPORT. What a command can read: its operands, `LEN` and its span (R9, R20), and the descriptor only where its rule
gives the order a meaning (R3, R88). -/

namespace Sys2Proof.Machine

/-- The same span written on two memories leaves them alike wherever they were alike. -/
theorem Memory.get_setSpan_congr {m m' : Memory} {k : Nat} (a : Nat) (bs : List Byte) (h : m.get k = m'.get k) :
    (m.setSpan a bs).get k = (m'.setSpan a bs).get k := by
  simp only [Memory.get_setSpan, h]

/-- The bytes of an admitted span are the same in two memories that agree on what the command touches. -/
theorem getSpan_eq_of_touches {i : Instr} {off : Word32} {w len : Nat} {m m' : Memory}
    (hspan : commandSpan i = some (off, w)) (hb : inBounds off w len = true)
    (hag : ∀ k, touches i k → m.get k = m'.get k) : m.getSpan (spanStart off) w = m'.getSpan (spanStart off) w :=
  Memory.getSpan_congr fun k hlo hhi => hag k ((touches_iff hspan hb k).2 ⟨hlo, hhi⟩)

/-- On buffers of one length that agree on the command's span, the command answers alike and leaves the span alike. -/
theorem exec_congr_span (i : Instr) {s t : State} (hlen : s.len = t.len)
    (hag : ∀ k, touches i k → s.mem.get k = t.mem.get k) :
    ∃ r m m', exec i s = .next (answered m r s) ∧ exec i t = .next (answered m' r t) ∧
      ∀ k, touches i k → m.get k = m'.get k := by
  rcases exec_shape i with ⟨-, -, r, hexec⟩ | ⟨off, w, f, hspan, -, hexec⟩ | ⟨off, w, bs, -, -, -, hexec⟩
  · exact ⟨r, s.mem, t.mem, hexec s, hexec t, hag⟩
  · have hs := hexec s
    have ht := hexec t
    rw [hlen] at hs
    cases hb : inBounds off w t.len with
    | false => exact ⟨.fault .bounds, s.mem, t.mem, by simpa [hb] using hs, by simpa [hb] using ht, hag⟩
    | true =>
      rw [getSpan_eq_of_touches hspan hb hag] at hs
      exact ⟨_, s.mem, t.mem, hs, ht, hag⟩
  · have hs := hexec s
    have ht := hexec t
    rw [hlen] at hs
    cases hb : inBounds off w t.len with
    | false => exact ⟨.fault .bounds, s.mem, t.mem, by simpa [hb] using hs, by simpa [hb] using ht, hag⟩
    | true =>
      exact ⟨.done, s.mem.setSpan (spanStart off) bs, t.mem.setSpan (spanStart off) bs, by simpa [hb] using hs,
        by simpa [hb] using ht, fun k hk => Memory.get_setSpan_congr _ bs (hag k hk)⟩

/-- Settles O13: by the three shapes of a command, no answer, a read span or a written span depends on anything else. -/
theorem commandDependsOnItsSpanOnly : Obligations.CommandDependsOnItsSpanOnly := by
  intro i s t hlen hag
  obtain ⟨r, m, m', hs, ht, hspan⟩ := exec_congr_span i hlen hag
  exact ⟨r, answered m r s, answered m' r t, hs, ht, rfl, rfl, hspan⟩

/-- Settles O57: the meanings of these five commands take the descriptor and do not use it, so each pair of outcomes is
one term. -/
theorem bitCommandsIgnoreTheDescriptor : Obligations.BitCommandsIgnoreTheDescriptor :=
  fun _ _ _ _ _ _ => ⟨rfl, rfl, rfl, rfl, rfl⟩

end Sys2Proof.Machine
end

section
/-! SUPPORT. A lawful host never stops the machine: each lawful event has a next state, from which the rest of the script
is lawful again (R34, R266). -/

namespace Sys2Proof.Machine

/-- A command, legal or not, is answered: `LEN` and the events to come stay as they were. -/
theorem runCommand_answered (c : Bits) (s : State) : ∃ m r, runCommand c s = .next (answered m r s) := by
  cases hc : decode c with
  | ok i =>
    obtain ⟨m, r, hexec, -⟩ := exec_answered i s
    exact ⟨m, r, (runCommand_ok hc s).trans hexec⟩
  | error e => exact ⟨s.mem, .fault .illegal, runCommand_error hc s⟩

theorem hostScript_write_iff (len k : Nat) (b : Byte) (es : List HostEvent) :
    hostScript len (.write k b :: es) = true ↔ k < len ∧ hostScript len es = true := by
  simp [hostScript]

theorem hostScript_bind_iff (len : Nat) (bs : List Byte) (es : List HostEvent) :
    hostScript len (.bind bs :: es) = true ↔ bs.length ≤ Config.bufLenMax ∧ hostScript bs.length es = true := by
  simp [hostScript]

theorem runEvent_lawful {e : HostEvent} {s : State} (h : hostScript s.len (e :: s.pending) = true) :
    ∃ t, runEvent e s = .next t ∧ hostScript t.len t.pending = true := by
  cases e with
  | command c =>
    obtain ⟨m, r, hrun⟩ := runCommand_answered c s
    exact ⟨answered m r s, hrun, h⟩
  | write k b =>
    obtain ⟨hk, hes⟩ := (hostScript_write_iff _ k b _).1 h
    exact ⟨{ s with mem := s.mem.set k b }, hostWrite_next_iff.2 ⟨hk, rfl⟩, hes⟩
  | bind bs =>
    obtain ⟨hlen, hes⟩ := (hostScript_bind_iff _ bs _).1 h
    exact ⟨bindBuffer bs s, hostBind_next_iff.2 ⟨hlen, rfl⟩, hes⟩
  | reset => exact ⟨s, rfl, h⟩

theorem step_lawful {s : State} (h : hostScript s.len s.pending = true) :
    ∃ t, step s = .next t ∧ hostScript t.len t.pending = true := by
  cases hp : s.pending with
  | nil => exact ⟨s, step_nil hp, h⟩
  | cons e es =>
    rw [step_cons hp]
    exact runEvent_lawful (hp ▸ h)

theorem core_run_succ {s t : State} (h : step s = .next t) (n : Nat) : core.run (n + 1) s = core.run n t := by
  have hstep : core.step s = .next t := h
  simp only [Host.Core.run, hstep]

/-- A property from which every step reaches a next state with that property is one with which every run goes on. -/
theorem core_run_of_step {P : State → Prop} (hstep : ∀ s, P s → ∃ t, step s = .next t ∧ P t) (n : Nat) (s : State)
    (hs : P s) : ∃ t : State, core.run n s = .next t ∧ P t := by
  induction n generalizing s with
  | zero => exact ⟨s, rfl, hs⟩
  | succ n ih =>
    obtain ⟨t, hst, ht⟩ := hstep s hs
    rw [core_run_succ hst n]
    exact ih t ht

/-- Settles O10: a lawful script has a next state with a lawful script (`step_lawful`), which keeps the invariant
(`step_keeps_inv`), and so has every run. -/
theorem lawfulHostRunNeverStops : Obligations.LawfulHostRunNeverStops := by
  intro n s hscript hinv
  refine core_run_of_step (P := fun s => hostScript s.len s.pending = true ∧ s.Inv = true) ?_ n s ⟨hscript, hinv⟩
  rintro s ⟨hscript, hinv⟩
  obtain ⟨t, hstep, ht⟩ := step_lawful hscript
  exact ⟨t, hstep, ht, step_keeps_inv hinv hstep⟩

/-- Settles O7: the step is the pending command, which runs what it decodes to. -/
theorem stepRunsTheDecodedCommand : Obligations.StepRunsTheDecodedCommand :=
  fun _ _ _ _ hpending hdecode => (step_command hpending).trans (runCommand_ok hdecode _)

end Sys2Proof.Machine
end

section
/-! SUPPORT. The host's two acts on the buffer and their stops (R34, log 7), and what a bound buffer holds (R35). -/

namespace Sys2Proof.Machine

theorem hostWrite_outside {k : Nat} (b : Byte) (s : State) (h : s.len ≤ k) :
    hostWrite k b s = .fault .hostWriteOutsideBuffer := by
  simp [hostWrite, Nat.not_lt.2 h]

theorem hostBind_tooLong {bs : List Byte} (s : State) (h : Config.bufLenMax < bs.length) :
    hostBind bs s = .refused .bufferTooLong := by
  simp [hostBind, Nat.not_le.2 h]

theorem Memory.get_ofBytes_of_lt {bs : List Byte} {k : Nat} (h : k < bs.length) :
    (Memory.ofBytes bs).get k = bs[k] := by
  simp [Memory.ofBytes, Memory.get_setSpan, h]

theorem Memory.get_ofBytes_of_ge {bs : List Byte} {k : Nat} (h : bs.length ≤ k) : (Memory.ofBytes bs).get k = 0#8 := by
  simp [Memory.ofBytes, Memory.get_setSpan, Nat.not_lt.2 h]

theorem bindBuffer_bytes (bs : List Byte) (s : State) : (bindBuffer bs s).bytes = bs :=
  Memory.getSpan_setSpan [] 0 bs

/-- Settles O18: the two host events inside and outside their bounds, with the rules for reading what they leave. -/
theorem hostWritesAndBindsTheBuffer : Obligations.HostWritesAndBindsTheBuffer := by
  refine fun s es => ⟨fun k b hp => ?_, fun bs hp => ?_⟩
  · rw [step_write hp]
    refine ⟨fun hk => ?_, fun hk => hostWrite_outside b _ hk⟩
    exact ⟨s.mem.set k b, hostWrite_next_iff.2 ⟨hk, rfl⟩, Memory.get_set_self s.mem k b,
      fun _ hj => Memory.get_set_ne s.mem b hj⟩
  · rw [step_bind hp]
    refine ⟨fun hlen => ?_, fun hlen => hostBind_tooLong _ hlen⟩
    exact ⟨Memory.ofBytes bs, hostBind_next_iff.2 ⟨hlen, rfl⟩, Memory.wf_ofBytes bs,
      fun _ hk => Memory.get_ofBytes_of_lt hk, fun _ hk => Memory.get_ofBytes_of_ge hk⟩

/-- Settles O20: the bind is admitted, and what it binds is the launch state. -/
theorem everyLaunchIsReachedFromReset : Obligations.EveryLaunchIsReachedFromReset := by
  intro bs hlen
  have hbind : hostBind bs State.reset = .next (State.launch bs) := hostBind_next_iff.2 ⟨hlen, rfl⟩
  exact ⟨(step_bind rfl).trans hbind, bindBuffer_bytes bs _, bindBuffer_len bs _, hostBind_inv hbind⟩

end Sys2Proof.Machine
end

section
/-! SUPPORT. What two commands make of one buffer, from the frame of each (R61) and from what each depends on (R9): the
same command again (R52), and two commands in either order (R55). -/

namespace Sys2Proof.Machine

/-- Settles O14: the frame of `exec_answered`. -/
theorem onlyTheSpanOfAWriteChanges : Obligations.OnlyTheSpanOfAWriteChanges := by
  intro i s
  obtain ⟨m, r, hexec, -, -, hread, hout⟩ := exec_answered i s
  exact ⟨answered m r s, r, hexec, rfl, rfl, rfl, hread, hout⟩

/-- The frame of a command whose next state is at hand. -/
theorem exec_frame {i : Instr} {s t : State} (h : exec i s = .next t) :
    t.len = s.len ∧ (writesBuffer i = false → t.mem = s.mem) ∧ ∀ k, ¬ touches i k → t.mem.get k = s.mem.get k := by
  obtain ⟨t', r, hexec, hlen, -, -, hread, hout⟩ := onlyTheSpanOfAWriteChanges i s
  obtain rfl : t' = t := by simpa [hexec] using h
  exact ⟨hlen, hread, hout⟩

/-- A span written twice holds what one write leaves. -/
theorem Memory.get_setSpan_setSpan (m : Memory) (a : Nat) (bs : List Byte) (k : Nat) :
    ((m.setSpan a bs).setSpan a bs).get k = (m.setSpan a bs).get k := by
  simp only [Memory.get_setSpan]
  split <;> rfl

/-- A command run on the state it left gives its answer again and leaves the same bytes. -/
theorem exec_again (i : Instr) (s : State) :
    ∃ r m m', exec i s = .next (answered m r s) ∧ exec i (answered m r s) = .next (answered m' r (answered m r s)) ∧
      ∀ k, m'.get k = m.get k := by
  rcases exec_shape i with ⟨-, -, r, hexec⟩ | ⟨off, w, f, -, -, hexec⟩ | ⟨off, w, bs, -, -, -, hexec⟩
  · exact ⟨r, s.mem, s.mem, hexec s, hexec _, fun _ => rfl⟩
  · exact ⟨_, s.mem, s.mem, hexec s, hexec _, fun _ => rfl⟩
  · cases hb : inBounds off w s.len with
    | false =>
      have again : ∀ t : State, t.len = s.len → exec i t = .next (answered t.mem (.fault .bounds) t) :=
        fun t ht => by simpa [ht, hb] using hexec t
      exact ⟨_, s.mem, s.mem, again s rfl, again _ rfl, fun _ => rfl⟩
    | true =>
      have again : ∀ t : State, t.len = s.len →
          exec i t = .next (answered (t.mem.setSpan (spanStart off) bs) .done t) :=
        fun t ht => by simpa [ht, hb] using hexec t
      exact ⟨_, _, _, again s rfl, again _ rfl, Memory.get_setSpan_setSpan s.mem _ bs⟩

/-- Settles O16: `exec_again`, the responses of the two runs in order. -/
theorem repeatedCommandRepeatsItsAnswer : Obligations.RepeatedCommandRepeatsItsAnswer := by
  intro i s
  obtain ⟨r, m, m', hfirst, hsecond, hmem⟩ := exec_again i s
  exact ⟨r, _, _, hfirst, hsecond, List.append_assoc _ _ _, hmem⟩

/-- The spans of the two commands meet nowhere, or meet without either writing. -/
def Independent (i j : Instr) : Prop := ∀ k, touches i k → touches j k → writesBuffer i = false ∧ writesBuffer j = false

theorem Independent.symm {i j : Instr} (h : Independent i j) : Independent j i := fun k hj hi => (h k hi hj).symm

theorem State.wf_of_inv {s : State} (h : s.Inv = true) : s.mem.wf = true := ((State.inv_iff s).1 h).1

/-- On the span of a command independent of it, a command leaves the bytes it found. -/
theorem exec_keeps_span_of_independent {i j : Instr} {s t : State} (h : Independent i j) (hexec : exec i s = .next t)
    {k : Nat} (hk : touches j k) : t.mem.get k = s.mem.get k := by
  obtain ⟨-, hread, hout⟩ := exec_frame hexec
  by_cases hik : touches i k
  · rw [hread (h k hik hk).1]
  · exact hout k hik

/-- After a command independent of it, a command answers as it would have before and leaves its span so. -/
theorem exec_after_independent {i j : Instr} {s si sj : State} (h : Independent i j) (hi : exec i s = .next si)
    (hj : exec j s = .next sj) :
    ∃ sij rj, exec j si = .next sij ∧ sij.len = s.len ∧ sj.responses = s.responses ++ [rj] ∧
      sij.responses = si.responses ++ [rj] ∧ (∀ k, touches j k → sij.mem.get k = sj.mem.get k) ∧
      ∀ k, ¬ touches j k → sij.mem.get k = si.mem.get k := by
  obtain ⟨hlen, -, -⟩ := exec_frame hi
  obtain ⟨rj, mij, mj, hij, hj', hspan⟩ :=
    exec_congr_span j hlen fun _ hk => exec_keeps_span_of_independent h hi hk
  obtain rfl : answered mj rj s = sj := by simpa [hj'] using hj
  obtain ⟨-, -, hout⟩ := exec_frame hij
  exact ⟨answered mij rj si, rj, hij, hlen, rfl, rfl, hspan, hout⟩

/-- Settles O17: each command answers alike in either order, and at every offset both orders leave the byte of the
command that reaches it, or the old one; with the invariant, equal bytes are equal memories. -/
theorem disjointCommandsCommute : Obligations.DisjointCommandsCommute := by
  intro i j s hspans
  have h : Independent i j := hspans
  obtain ⟨_, _, hi, -⟩ := exec_answered i s
  obtain ⟨_, _, hj, -⟩ := exec_answered j s
  obtain ⟨sij, rj, hij, hlen, hrj, hresp, hspan, hout⟩ := exec_after_independent h hi hj
  obtain ⟨sji, ri, hji, hlen', hri, hresp', hspan', hout'⟩ := exec_after_independent h.symm hj hi
  have hget : ∀ k, sij.mem.get k = sji.mem.get k := by
    intro k
    by_cases hik : touches i k <;> by_cases hjk : touches j k
    · have hki := exec_keeps_span_of_independent h hi hjk
      have hkj := exec_keeps_span_of_independent h.symm hj hik
      rw [hspan k hjk, hspan' k hik, hki, hkj]
    · rw [hout k hjk, hspan' k hik]
    · rw [hspan k hjk, hout' k hik]
    · obtain ⟨-, -, hki⟩ := exec_frame hi
      obtain ⟨-, -, hkj⟩ := exec_frame hj
      rw [hout k hjk, hout' k hik, hki k hik, hkj k hjk]
  refine ⟨ri, rj, _, sij, _, sji, hi, hij, hj, hji, ?_, ?_, hlen.trans hlen'.symm, hget, fun hinv => ?_⟩
  · rw [hresp, hri, List.append_assoc, List.singleton_append]
  · rw [hresp', hrj, List.append_assoc, List.singleton_append]
  · exact Memory.wf_ext (State.wf_of_inv (exec_keeps_inv (exec_keeps_inv hinv hi) hij))
      (State.wf_of_inv (exec_keeps_inv (exec_keeps_inv hinv hj) hji)) hget

end Sys2Proof.Machine
end

section
/-! SUPPORT. What an admitted store leaves, read in parts (R47), under both orders (R49), and in the other order than it
was written (R50). -/

namespace Sys2Proof.Machine

section
variable {w W : Nat} {d e : Desc} {off : Word32} {v : BitVec W} {s : State}

theorem store_responses (h : inBounds off w s.len = true) :
    (store w d off v s).responses = s.responses ++ [.done] := by
  rw [store_ok h]; rfl

theorem store_len (h : inBounds off w s.len = true) : (store w d off v s).len = s.len := by
  rw [store_ok h]; rfl

theorem store_mem (h : inBounds off w s.len = true) :
    (store w d off v s).mem = s.mem.setSpan (spanStart off) (place (select d) w v) := by
  rw [store_ok h]; rfl

/-- The byte a store leaves at a place of its span is the byte of the value in that place's lane (R42, R43). -/
theorem store_mem_get (h : inBounds off w s.len = true) {i : Nat} (hi : i < w) :
    (store w d off v s).mem.get (spanStart off + i) = v.extractLsb' (8 * lane (select d) w i) 8 := by
  rw [store_mem h, Memory.get_setSpan_in _ _ _ _ (by simpa using hi), getElem_place]

/-! ### The two orders -/

/-- The place a byte has under one order is, counted from the other end, its place under the other. -/
theorem lane_of_ne {o o' : Order} (h : o ≠ o') {w i : Nat} (hi : i < w) : lane o w i = lane o' w (w - 1 - i) := by
  cases o <;> cases o'
  · exact absurd rfl h
  · simp only [lane]; omega
  · rfl
  · exact absurd rfl h

/-- The bytes stored under one order are those stored under the other in reverse. -/
theorem store_mem_get_of_ne (hne : select d ≠ select e) (h : inBounds off w s.len = true) {i : Nat} (hi : i < w) :
    (store w e off v s).mem.get (spanStart off + i) = (store w d off v s).mem.get (spanStart off + (w - 1 - i)) := by
  rw [store_mem_get h hi, store_mem_get h (by omega), lane_of_ne hne.symm hi]

/-- Where a value's bytes read differently backwards, the two orders store different bytes. -/
theorem exists_store_mem_get_ne (hd : select d = .little) (he : select e = .big) (h : inBounds off w s.len = true)
    (hv : ∃ i, i < w ∧ v.extractLsb' (8 * i) 8 ≠ v.extractLsb' (8 * (w - 1 - i)) 8) :
    ∃ i, i < w ∧ (store w e off v s).mem.get (spanStart off + i) ≠ (store w d off v s).mem.get (spanStart off + i) := by
  obtain ⟨i, hi, hne⟩ := hv
  refine ⟨i, hi, ?_⟩
  rw [store_mem_get h hi, store_mem_get h hi, hd, he]
  exact hne.symm

/-! ### Reading a stored value -/

/-- Part of a span just written. -/
theorem Memory.getSpan_add_setSpan (m : Memory) (a : Nat) (bs : List Byte) {i n : Nat} (h : i + n ≤ bs.length) :
    (m.setSpan a bs).getSpan (a + i) n = (bs.drop i).take n := by
  apply List.ext_getElem (by simp; omega)
  intro k hk _
  simp only [Memory.length_getSpan] at hk
  rw [Memory.getElem_getSpan, Nat.add_assoc, Memory.get_setSpan_in _ _ _ _ (by omega)]
  simp

/-- A load within an admitted store's span combines the placed bytes it covers. -/
theorem load_of_store {n V i : Nat} {p q : Word32} {u : BitVec V} {t : State} (mk : BitVec W → Response)
    (h : inBounds p w s.len = true) (hlen : t.len = s.len) (hmem : t.mem = (store w d p u s).mem)
    (hq : q.toInt = p.toInt + i) (hi : i + n ≤ w) :
    load W n mk e q t = respond (mk (combine W (select e) (((place (select d) w u).drop i).take n))) t := by
  have hb := (inBounds_iff _ _ _).1 h
  have hqb : inBounds q n t.len = true := (inBounds_iff _ _ _).2 (by omega)
  have hstart : spanStart q = spanStart p + i := by unfold spanStart; omega
  rw [load_ok hqb, hmem, store_mem h, hstart, Memory.getSpan_add_setSpan _ _ _ (by simpa using hi)]

/-- A part of the bytes a value is placed in combines to those bits of the value that the order places there. -/
theorem combine_part_place (o : Order) {n w W i V : Nat} (v : BitVec V) (hW : W = 8 * n) (hi : i + n ≤ w) :
    combine W o (((place o w v).drop i).take n) = v.extractLsb' (8 * lane o (w - n + 1) i) W := by
  have hlen : (((place o w v).drop i).take n).length = n := by simp; omega
  refine combine_eq (by omega) fun k hk j hj => ?_
  have hlane : lane o w (i + lane o n k) = lane o (w - n + 1) i + k := by
    cases o with
    | little => simp only [lane]
    | big => simp only [lane]; omega
  simp only [hlen, List.getElem_take, List.getElem_drop, getElem_place, BitVec.getLsbD_extractLsb', hlane]
  simp only [hj, show 8 * k + j < W by omega, decide_true, Bool.true_and]
  congr 1
  omega

/-- Across the two orders, a place's lane is the place counted from the other end. -/
theorem lane_lane_of_ne {o o' : Order} (h : o ≠ o') {w i : Nat} (hi : i < w) : lane o w (lane o' w i) = w - 1 - i := by
  rw [lane_of_ne h (lane_lt o' hi)]
  cases o' with
  | little => simp only [lane]
  | big => simp only [lane]; omega

/-- A value placed in one order combines in the other to the value whose bytes are its bytes reversed. -/
theorem combine_place_of_ne {o o' : Order} (h : o ≠ o') {v x : BitVec W} (hW : W = 8 * w)
    (hx : ∀ i < w, ∀ j < 8, x.getLsbD (8 * i + j) = v.getLsbD (8 * (w - 1 - i) + j)) :
    combine W o' (place o w v) = x := by
  refine combine_eq (by simpa using hW) fun i hi j hj => ?_
  simp only [length_place] at hi
  simp only [length_place, getElem_place, BitVec.getLsbD_extractLsb', hj, decide_true, Bool.true_and,
    lane_lane_of_ne h hi, hx i hi j hj]

/-- Bytes 0 to `n` of a value, byte 0 highest. -/
def bytesReversed (v : BitVec W) : (n : Nat) → BitVec (8 * n + 8)
  | 0 => v.extractLsb' 0 8
  | n + 1 => bytesReversed v n ++ v.extractLsb' (8 * (n + 1)) 8

/-- Byte `i` of the reversed bytes is byte `n - i` of the value. -/
theorem getLsbD_bytesReversed (v : BitVec W) {n i j : Nat} (hi : i ≤ n) (hj : j < 8) :
    (bytesReversed v n).getLsbD (8 * i + j) = v.getLsbD (8 * (n - i) + j) := by
  induction n generalizing i with
  | zero =>
    obtain rfl : i = 0 := by omega
    simp [bytesReversed, hj]
  | succ n ih =>
    rw [bytesReversed, BitVec.getLsbD_append]
    cases i with
    | zero => simp [hj]
    | succ i =>
      rw [if_neg (by omega), show 8 * (i + 1) + j - 8 = 8 * i + j by omega, ih (by omega), Nat.add_sub_add_right]

/-- A load in the other order than an admitted store's answers the value with its bytes reversed. -/
theorem load_store_of_ne {n : Nat} (v : BitVec (8 * n + 8)) (mk : BitVec (8 * n + 8) → Response)
    (hne : select d ≠ select e) (h : inBounds off (n + 1) s.len = true) :
    load (8 * n + 8) (n + 1) mk e off (store (n + 1) d off v s) =
      respond (mk (bytesReversed v n)) (store (n + 1) d off v s) := by
  have hx : combine _ (select e) (place (select d) (n + 1) v) = bytesReversed v n :=
    combine_place_of_ne hne rfl fun i hi j hj => getLsbD_bytesReversed v (by omega) hj
  rw [load_of_store (i := 0) mk h (store_len h) rfl (by simp) (by omega), List.drop_zero,
    List.take_of_length_le (by simp), hx]

end

/-! ### The statements on stored values -/

/-- Settles O32: each half is a part of the stored bytes; which half, `lane` says for each order. -/
theorem longReadsBackAsTwoInts : Obligations.LongReadsBackAsTwoInts := by
  intro d p q v s h hq
  have hb : inBounds p 8 s.len = true := (inBounds_iff p 8 s.len).2 h
  have hhalf : ∀ {i : Nat} {r : Word32} {t : State}, t.len = s.len → t.mem = (store 8 d p v s).mem → i + 4 ≤ 8 →
      r.toInt = p.toInt + i →
      load 32 4 .res32 d r t = respond (.res32 (v.extractLsb' (8 * lane (select d) 5 i) 32)) t :=
    fun hlen hmem hi hr => by rw [load_of_store _ hb hlen hmem hr hi, combine_part_place _ _ rfl hi]
  have hlen := store_len (d := d) (v := v) hb
  refine ⟨_, _, _, rfl, congrArg Host.Outcome.next (hhalf (i := 0) hlen rfl (by omega) (by simp)),
    congrArg Host.Outcome.next (hhalf (i := 4) hlen rfl (by omega) hq), ?_⟩
  cases select d <;> simp [store_responses hb, lane]

/-- Settles O33: the bytes of the two stores, lane by lane, at both widths. -/
theorem ordersWriteReversedBytes : Obligations.OrdersWriteReversedBytes := by
  intro d e off s hd he
  have hne : select d ≠ select e := by simp [hd, he]
  refine ⟨fun h v => ?_, fun h v => ?_⟩
  · have hb : inBounds off 4 s.len = true := (inBounds_iff off 4 s.len).2 h
    exact ⟨_, _, rfl, rfl, fun _ => store_mem_get_of_ne hne hb, exists_store_mem_get_ne hd he hb⟩
  · have hb : inBounds off 8 s.len = true := (inBounds_iff off 8 s.len).2 h
    exact ⟨_, _, rfl, rfl, fun _ => store_mem_get_of_ne hne hb, exists_store_mem_get_ne hd he hb⟩

/-- Settles O34: `load_store_of_ne` at both widths; the concatenations stated are `bytesReversed` written out. -/
theorem crossOrderReadReversesTheBytes : Obligations.CrossOrderReadReversesTheBytes := by
  intro d e off s hne
  refine ⟨fun h v => ?_, fun h v => ?_⟩
  · have hb : inBounds off 4 s.len = true := (inBounds_iff off 4 s.len).2 h
    refine ⟨_, _, rfl, congrArg Host.Outcome.next (load_store_of_ne (n := 3) v .res32 hne hb), ?_⟩
    simp only [respond_responses, store_responses hb, List.append_assoc]
    rfl
  · have hb : inBounds off 8 s.len = true := (inBounds_iff off 8 s.len).2 h
    refine ⟨_, _, rfl, congrArg Host.Outcome.next (load_store_of_ne (n := 7) v .res64 hne hb), ?_⟩
    simp only [respond_responses, store_responses hb, List.append_assoc]
    rfl

end Sys2Proof.Machine
end

section
/-! SUPPORT. The decoder and the encoder say the same of a vector: its header is the command's (R71), its length and its
other fields are those the command's format gives (R72 to R78). -/

namespace Sys2Proof

/-- Above its header the vector is the command's word, field by field: one row per format (R72 to R78). -/
def Bits.Spells (c : Bits) : Instr → Prop
  | .get _ => c.clen = 8
  | .toInt _ off | .toLong _ off | .toFloat _ off | .toDouble _ off => c.clen = 40 ∧ c.field 8 32 = off
  | .fromInt _ off v | .fromFloat _ off v => c.clen = 72 ∧ c.field 8 32 = off ∧ c.field 40 32 = v
  | .fromLong _ off v | .fromDouble _ off v => c.clen = 104 ∧ c.field 8 32 = off ∧ c.field 40 64 = v
  | .toLongP _ hi lo => c.clen = 72 ∧ c.field 8 32 = lo ∧ c.field 40 32 = hi
  | .toBitStr _ n v | .toLastBitStr _ n v | .reverse _ n v | .reverseLeft _ n v =>
      c.clen = 80 ∧ c.field 8 8 = n ∧ c.field 16 64 = v
  | .fromBitStr _ cs | .bitStr2Long _ cs => c.clen = 24 + 8 * cs.length ∧ c.chars = cs

/-! ### Lengths -/

theorem Bits.need_s_iff (c : Bits) (n : Nat) :
    c.need .s = some n ↔ 24 ≤ c.clen ∧ n = 24 + 8 * (c.field 8 16).toNat := by
  by_cases h : c.clen < 24
  · simp [Bits.need, h]
  · simp [Bits.need, h, Nat.not_lt.1 h, eq_comm]

/-- No format is shorter than the header. -/
theorem Bits.eight_le_of_need {c : Bits} {f : Format} {n : Nat} (h : c.need f = some n) : 8 ≤ n := by
  cases f with
  | s =>
    obtain ⟨-, rfl⟩ := (c.need_s_iff n).1 h
    omega
  | _ =>
    obtain rfl := Option.some.inj h
    decide

/-! ### The command a vector's fields spell -/

@[simp] theorem Bits.desc_instr (c : Bits) : c.instr.desc = Desc.ofBits (c.field 4 2) := by
  unfold Bits.instr
  split <;> rfl

@[simp] theorem Bits.opc_instr (c : Bits) : c.instr.opc = c.field 0 4 := by
  unfold Bits.instr
  generalize c.field 0 4 = opc
  obtain ⟨⟨k, hk⟩⟩ := opc
  interval_cases k <;> rfl

/-- A field of the header byte. -/
theorem Bits.field_headerByte (c : Bits) {lo w : Nat} (h : lo + w ≤ 8) :
    Bits.field ⟨8, c.field 0 8⟩ lo w = c.field lo w := by
  rw [c.field_field h, Nat.zero_add]

theorem Bits.header_instr {c : Bits} (hr : c.field 6 2 = 0#2) : c.instr.header = c.field 0 8 := by
  have h := header_of_fields (c.field 0 8)
  rw [c.field_headerByte (by omega), c.field_headerByte (by omega), c.field_headerByte (by omega)] at h
  rw [Instr.header, desc_instr, opc_instr, h hr]

/-- The fields of a vector whose header is a command's (R71). -/
theorem Bits.fields_of_header {c : Bits} {i : Instr} (h : c.field 0 8 = i.header) :
    c.field 6 2 = 0#2 ∧ Desc.ofBits (c.field 4 2) = i.desc ∧ c.field 0 4 = i.opc := by
  have hf := header_fields i.desc i.opc
  rw [← Instr.header, ← h, c.field_headerByte (by omega), c.field_headerByte (by omega),
    c.field_headerByte (by omega)] at hf
  obtain ⟨hr, hd, ho⟩ := hf
  exact ⟨hr, by rw [hd, Desc.ofBits_toBits], ho⟩

/-- A vector of its format's length spells the command that is read from its fields. -/
theorem Bits.spells_instr {c : Bits} (h : c.need (formatOf c.instr.opc) = some c.clen) : c.Spells c.instr := by
  have hlen : ∀ {n : Nat}, some n = some c.clen → c.clen = n := fun hn => (Option.some.inj hn).symm
  have hstr : c.need .s = some c.clen → c.clen = 24 + 8 * c.chars.length := fun hn => by
    rw [c.length_chars]
    exact ((c.need_s_iff _).1 hn).2
  revert h
  unfold Bits.instr
  split
  -- the opcodes of formats Z, B and S; the others have two fields
  case h_1 => exact hlen
  case h_2 | h_4 | h_7 | h_9 => exact fun hn => ⟨hlen hn, rfl⟩
  case h_13 | h_16 => exact fun hn => ⟨hstr hn, rfl⟩
  all_goals exact fun hn => ⟨hlen hn, rfl, rfl⟩

/-- A vector that spells a command has the length its opcode's format asks for (R89). -/
theorem Bits.Spells.need_eq {c : Bits} {i : Instr} (h : c.Spells i) : c.need (formatOf i.opc) = some c.clen := by
  cases i with
  | get => exact congrArg some (Eq.symm h)
  | fromBitStr _ cs | bitStr2Long _ cs =>
    obtain ⟨hlen, rfl⟩ := h
    rw [c.length_chars] at hlen
    exact (c.need_s_iff _).2 ⟨by omega, hlen⟩
  | _ => exact congrArg some h.1.symm

/-- The command read from the fields of a vector that spells it. -/
theorem Bits.Spells.instr_eq {c : Bits} {i : Instr} (h : c.Spells i) (hd : Desc.ofBits (c.field 4 2) = i.desc)
    (ho : c.field 0 4 = i.opc) : c.instr = i := by
  unfold Bits.instr
  rw [hd, ho]
  cases i with
  | get => rfl
  | toInt | toLong | toFloat | toDouble | fromBitStr | bitStr2Long =>
    obtain ⟨-, rfl⟩ := h
    rfl
  | _ =>
    obtain ⟨-, rfl, rfl⟩ := h
    rfl

/-- A vector decodes to a command exactly when it has the command's header and spells its operands (R89). -/
theorem decode_eq_ok_iff {c : Bits} {i : Instr} : decode c = .ok i ↔ c.field 0 8 = i.header ∧ c.Spells i := by
  constructor
  · intro h
    obtain ⟨-, hr, hn, rfl⟩ := decode_eq_ok h
    rw [← c.opc_instr] at hn
    exact ⟨(Bits.header_instr hr).symm, Bits.spells_instr hn⟩
  · rintro ⟨hh, hs⟩
    obtain ⟨hr, hd, ho⟩ := Bits.fields_of_header hh
    have hn := hs.need_eq
    rw [decode_ok (Bits.eight_le_of_need hn) hr (ho ▸ hn), hs.instr_eq hd ho]

/-! ### The word of a command -/

theorem field_header_encode (i : Instr) : (encode i).field 0 8 = i.header := by
  cases i with
  | get => exact Bits.field_whole _
  | fromBitStr | bitStr2Long => exact (countedBytes_head (by omega)).trans (Bits.field_whole _)
  | _ => exact (Bits.field_append_low _ _ (by omega)).trans (Bits.field_whole _)

theorem chars_countedBytes (h : BitVec 8) {cs : List Byte} (hlen : cs.length ≤ Config.strMax) :
    (countedBytes h cs).chars = cs := by
  have hcount : ((countedBytes h cs).field 8 16).toNat = cs.length := by
    rw [countedBytes_count]
    exact Nat.mod_eq_of_lt (Nat.lt_succ_of_le hlen)
  refine List.ext_getElem ((Bits.length_chars _).trans hcount) fun k _ hk => ?_
  rw [Bits.getElem_chars, countedBytes_element h cs k hk]

theorem spells_encode {i : Instr} (hwf : i.wf = true) : (encode i).Spells i := by
  cases i with
  | get => rfl
  | toInt | toLong | toFloat | toDouble => exact ⟨rfl, field_body_one _ _⟩
  | fromBitStr _ cs | bitStr2Long _ cs => exact ⟨countedBytes_clen _ cs, chars_countedBytes _ (of_decide_eq_true hwf)⟩
  | _ => exact ⟨rfl, field_body_low _ _ _, field_body_high _ _ _⟩

/-- Settles O1: a word has its command's header and spells its operands, which is all the decoder reads
(`decode_eq_ok_iff`). -/
theorem decodeOfEncodeIsIdentity : Obligations.DecodeOfEncodeIsIdentity :=
  fun i hwf => decode_eq_ok_iff.2 ⟨field_header_encode i, spells_encode hwf⟩

/-! ### The vector a command's word is -/

/-- Two adjacent fields side by side. -/
theorem Bits.field_append_field (c : Bits) (lo k n : Nat) : c.field (lo + k) n ++ c.field lo k = c.field lo (n + k) := by
  apply BitVec.eq_of_getLsbD_eq
  intro j hj
  simp only [BitVec.getLsbD_append, Bits.getLsbD_field]
  split
  · simp [*]
  · rw [show lo + k + (j - k) = lo + j by omega]
    simp [hj, show j - k < n by omega]

theorem Bits.eq_field_whole (c : Bits) {n : Nat} (h : c.clen = n) : (⟨n, c.field 0 n⟩ : Bits) = c := by
  subst h
  exact congrArg (Bits.mk c.clen) (Bits.field_whole c.bits)

/-- A vector of a body's length and a header's is the body above the header. -/
theorem Bits.body_append_header (c : Bits) {n : Nat} (h : c.clen = n + 8) :
    (⟨n + 8, c.field 8 n ++ c.field 0 8⟩ : Bits) = c := by
  rw [c.field_append_field 0 8 n]
  exact c.eq_field_whole h

theorem Bits.two_fields_append_header (c : Bits) {n k : Nat} (h : c.clen = n + k + 8) :
    (⟨n + k + 8, c.field (8 + k) n ++ c.field 8 k ++ c.field 0 8⟩ : Bits) = c := by
  rw [c.field_append_field 8 k n]
  exact c.body_append_header h

/-- The characters of a vector, packed, are the field they stand in. -/
theorem Bits.packBytes_chars (c : Bits) : packBytes c.chars = c.field 24 (8 * c.chars.length) := by
  apply BitVec.eq_of_getLsbD_eq
  intro j hj
  have hk : j / 8 < c.chars.length := by omega
  have hb := getLsbD_packBytes c.chars (j / 8) (j % 8) hk (Nat.mod_lt _ (by omega))
  rw [show 8 * (j / 8) + j % 8 = j by omega] at hb
  rw [hb, Bits.getElem_chars, Bits.getLsbD_field, Bits.getLsbD_field,
    show 24 + 8 * (j / 8) + j % 8 = 24 + j by omega]
  simp only [hj, Nat.mod_lt j (by omega : 8 > 0), decide_true]

theorem Bits.countedBytes_chars (c : Bits) (h : c.clen = 24 + 8 * c.chars.length) :
    countedBytes (c.field 0 8) c.chars = c := by
  have hcount : BitVec.ofNat 16 c.chars.length = c.field 8 16 := by simp
  unfold countedBytes
  rw [hcount, c.packBytes_chars]
  exact c.two_fields_append_header (by omega)

theorem Bits.Spells.encode_eq {c : Bits} {i : Instr} (h : c.Spells i) (hh : c.field 0 8 = i.header) : encode i = c := by
  unfold encode
  rw [← hh]
  cases i with
  | get => exact c.eq_field_whole h
  | toInt | toLong | toFloat | toDouble =>
    obtain ⟨hlen, rfl⟩ := h
    exact c.body_append_header hlen
  | fromBitStr | bitStr2Long =>
    obtain ⟨hlen, rfl⟩ := h
    exact c.countedBytes_chars hlen
  | fromInt | fromFloat | toLongP =>
    obtain ⟨hlen, rfl, rfl⟩ := h
    exact c.two_fields_append_header (n := 32) (k := 32) hlen
  | fromLong | fromDouble =>
    obtain ⟨hlen, rfl, rfl⟩ := h
    exact c.two_fields_append_header (n := 64) (k := 32) hlen
  | toBitStr | toLastBitStr | reverse | reverseLeft =>
    obtain ⟨hlen, rfl, rfl⟩ := h
    exact c.two_fields_append_header (n := 64) (k := 8) hlen

theorem Bits.Spells.wf {c : Bits} {i : Instr} (h : c.Spells i) : i.wf = true := by
  cases i with
  | fromBitStr _ cs | bitStr2Long _ cs =>
    obtain ⟨-, rfl⟩ := h
    refine decide_eq_true ?_
    rw [c.length_chars]
    exact Nat.le_of_lt_succ (c.field 8 16).isLt
  | _ => rfl

/-- Settles O2: what the decoder reads is the header and every field above it, and these side by side are the word. -/
theorem encodeOfDecodeIsIdentity : Obligations.EncodeOfDecodeIsIdentity := by
  intro c i h
  obtain ⟨hh, hs⟩ := decode_eq_ok_iff.1 h
  exact ⟨hs.wf, hs.encode_eq hh⟩

end Sys2Proof
end

section
/-! SUPPORT. Which vectors decode (R89 to R92), what a vector that does not is answered (R226), and the string
commands' vectors field by field (R78). -/

namespace Sys2Proof.Machine

/-! ### Legal vectors -/

/-- A legal vector has a header, `RSV` = 00 and the length R89 asks for. -/
theorem legalVector_iff (c : Bits) :
    legalVector c ↔ 8 ≤ c.clen ∧ c.field 6 2 = 0#2 ∧ c.need (formatOf (c.field 0 4)) = some c.clen := by
  unfold legalVector formatOf
  refine and_congr_right fun _ => and_congr_right fun _ => ?_
  have hlt := (c.field 0 4).isLt
  generalize (c.field 0 4).toNat = opc at hlt
  match opc, hlt with
  | 12, _ | 15, _ => exact (c.need_s_iff _).symm
  | 0, _ | 1, _ | 2, _ | 3, _ | 4, _ | 5, _ | 6, _ | 7, _ | 8, _ | 9, _ | 10, _ | 11, _ | 13, _ | 14, _ =>
    exact eq_comm.trans Option.some_inj.symm
  | _ + 16, h => omega

theorem exists_decode_eq_ok_iff (c : Bits) : (∃ i, decode c = .ok i) ↔ legalVector c := by
  rw [legalVector_iff]
  constructor
  · rintro ⟨i, h⟩
    obtain ⟨hlen, hr, hn, -⟩ := decode_eq_ok h
    exact ⟨hlen, hr, hn⟩
  · rintro ⟨hlen, hr, hn⟩
    exact ⟨_, decode_ok hlen hr hn⟩

theorem runCommand_illegal {c : Bits} (h : ¬ legalVector c) (s : State) : runCommand c s = .next (raise .illegal s) := by
  cases hc : decode c with
  | ok i => exact absurd ((exists_decode_eq_ok_iff c).1 ⟨i, hc⟩) h
  | error e => exact runCommand_error hc s

/-- Settles O4: the legal vectors are those that pass the decoder's tests. -/
theorem illegalVectorsAreAnsweredIllegal : Obligations.IllegalVectorsAreAnsweredIllegal :=
  ⟨exists_decode_eq_ok_iff, fun _ _ _ hpending hc => (step_command hpending).trans (runCommand_illegal hc _)⟩

/-! ### Strings -/

/-- A format-S vector has the header of its descriptor and opcode, and its characters are its string. -/
theorem isFormatS_fields {c : Bits} {d : Desc} {opc : BitVec 4} {cs : List Byte} (h : isFormatS c d opc cs) :
    c.field 0 8 = 0#2 ++ d.toBits ++ opc ∧ c.clen = 24 + 8 * cs.length ∧ c.chars = cs := by
  obtain ⟨hmax, hlen, hheader, hcount, hchars⟩ := h
  have hslen : (c.field 8 16).toNat = cs.length := by
    rw [hcount]
    exact Nat.mod_eq_of_lt (Nat.lt_succ_of_le hmax)
  refine ⟨hheader, hlen, List.ext_getElem (c.length_chars.trans hslen) fun k hk hk' => ?_⟩
  rw [c.getElem_chars k hk, hchars k hk']

/-- Settles O5: a format-S vector has the header of its command and spells it. -/
theorem stringVectorsDecodeToTheirCharacters : Obligations.StringVectorsDecodeToTheirCharacters :=
  fun _ _ _ => ⟨fun h => decode_eq_ok_iff.2 (isFormatS_fields h), fun h => decode_eq_ok_iff.2 (isFormatS_fields h)⟩

end Sys2Proof.Machine
end

section
/-! SUPPORT. The fields of a response word (R80 to R85). -/

namespace Sys2Proof.Machine

theorem field_status_word (r : Response) : r.word.field 0 8 = r.status := by
  cases r with
  | fault | done => exact Bits.field_whole _
  | res32 | res64 => exact (Bits.field_append_low _ _ (by omega)).trans (Bits.field_whole _)
  | str | bytes => exact (countedBytes_head (by omega)).trans (Bits.field_whole _)

/-- Settles O23: RS and RB are counted words, RES32 and RES64 a value above the status. -/
theorem responseWordsHaveTheirFormat : Obligations.ResponseWordsHaveTheirFormat := by
  refine ⟨field_status_word, fun _ => rfl, rfl, fun v => ⟨rfl, field_body_one _ _⟩, fun v => ⟨rfl, field_body_one _ _⟩,
    fun bs hbs r hr => ?_⟩
  have hword : r.word = countedBytes 0x00#8 bs := by rcases hr with rfl | rfl <;> rfl
  rw [hword]
  refine ⟨countedBytes_clen _ bs, ?_, countedBytes_element _ bs⟩
  rw [countedBytes_count]
  exact Nat.mod_eq_of_lt (Nat.lt_succ_of_le hbs)

end Sys2Proof.Machine
end

section
/-! SUPPORT. The forms without a destination buffer (R95): a store at offset 0 of a buffer as long as its value. -/

namespace Sys2Proof.Machine

theorem inBounds_whole (w : Nat) : inBounds 0#32 w w = true := by
  simp [inBounds_iff]

/-- A span as long as the buffer fits at offset 0 only. -/
theorem inBounds_whole_of_ne {off : Word32} (h : off ≠ 0#32) (w : Nat) : inBounds off w w = false := by
  have hne : off.toInt ≠ (0#32).toInt := fun heq => h (BitVec.toInt_inj.1 heq)
  rw [BitVec.toInt_zero] at hne
  rw [inBounds_eq_false_iff]
  omega

theorem store_whole_of_ne {w W : Nat} {d : Desc} {off : Word32} {v : BitVec W} {s : State} (hlen : s.len = w)
    (hoff : off ≠ 0#32) : store w d off v s = raise .bounds s :=
  store_bounds (hlen ▸ inBounds_whole_of_ne hoff w)

/-- A store over the whole buffer leaves the placed bytes of its value. -/
theorem store_whole_bytes {w W : Nat} {d : Desc} {v : BitVec W} {s : State} (hlen : s.len = w) :
    (store w d 0#32 v s).bytes = place (select d) w v := by
  have hb : inBounds 0#32 w s.len = true := hlen ▸ inBounds_whole w
  have hspan := Memory.getSpan_setSpan s.mem 0 (place (select d) w v)
  rw [length_place] at hspan
  rw [State.bytes, store_len hb, store_mem hb, hlen]
  exact hspan

/-- The bind and the store of a form without a destination buffer, whatever the fresh buffer held. -/
theorem step_withFreshBuffer {w W : Nat} {d : Desc} {v : BitVec W} {i : Instr} {fresh : List Byte} {s : State}
    {es : List HostEvent} (hexec : ∀ t, exec i t = .next (store w d 0#32 v t)) (hwf : i.wf = true)
    (hlen : fresh.length = w) (hw : w ≤ Config.bufLenMax) (hpending : s.pending = withFreshBuffer fresh i ++ es)
    {bs : List Byte} (hbs : place (select d) w v = bs) :
    ∃ t u : State, step s = .next t ∧ step t = .next u ∧ u.len = w ∧ u.pending = es ∧
      u.responses = s.responses ++ [.done] ∧ u.bytes = bs := by
  have hbind : step s = .next (bindBuffer fresh { s with pending := .command (encode i) :: es }) :=
    (step_bind hpending).trans (hostBind_next_iff.2 ⟨hlen ▸ hw, rfl⟩)
  have hrun : ∀ t : State, t.pending = .command (encode i) :: es →
      step t = .next (store w d 0#32 v { t with pending := es }) := fun t ht => by
    rw [step_command ht, runCommand_ok (decodeOfEncodeIsIdentity i hwf), hexec]
  have hb : inBounds 0#32 w fresh.length = true := hlen ▸ inBounds_whole w
  refine ⟨_, _, hbind, hrun _ rfl, (store_len hb).trans hlen, ?_, store_responses hb, (store_whole_bytes hlen).trans hbs⟩
  rw [store_ok hb]
  rfl

/-- Settles O21: the bytes of a store over the whole buffer, order by order, and a store at any other offset. -/
theorem freshBufferFormsOverwriteTheWholeBuffer : Obligations.FreshBufferFormsOverwriteTheWholeBuffer := by
  intro d fresh s es
  refine ⟨fun v i hlen hi hpending => ?_, fun v i hlen hi hpending => ?_, fun v off hlen hoff => ?_,
    fun v off hlen hoff => ?_⟩
  · have hexec : ∀ t, exec i t = .next (store 4 d 0#32 v t) := by rcases hi with rfl | rfl <;> exact fun _ => rfl
    have hwf : i.wf = true := by rcases hi with rfl | rfl <;> rfl
    exact step_withFreshBuffer hexec hwf hlen (by decide) hpending (by cases select d <;> rfl)
  · have hexec : ∀ t, exec i t = .next (store 8 d 0#32 v t) := by rcases hi with rfl | rfl <;> exact fun _ => rfl
    have hwf : i.wf = true := by rcases hi with rfl | rfl <;> rfl
    exact step_withFreshBuffer hexec hwf hlen (by decide) hpending (by cases select d <;> rfl)
  · have h : store 4 d off v s = raise .bounds s := store_whole_of_ne hlen hoff
    exact ⟨congrArg Host.Outcome.next h, congrArg Host.Outcome.next h⟩
  · have h : store 8 d off v s = raise .bounds s := store_whole_of_ne hlen hoff
    exact ⟨congrArg Host.Outcome.next h, congrArg Host.Outcome.next h⟩

end Sys2Proof.Machine
end

section
/-! SUPPORT. The integer codec (R110 to R116): the value a span's bytes combine to, written out; what a load answers and
a store writes, in the spec's words; and a span read as two halves. -/

namespace Sys2Proof.Machine

/-! ### The value of a span, written out -/

/-- Under `LITTLE` the bytes are packed as they stand, the first lowest. -/
theorem combine_little (bs : List Byte) : combine (8 * bs.length) .little bs = packBytes bs :=
  combine_eq rfl fun i hi j hj => getLsbD_packBytes bs i j hi hj

theorem getLsbD_combine_little {W : Nat} {bs : List Byte} (hW : W = 8 * bs.length) {i j : Nat} (hi : i < bs.length)
    (hj : j < 8) : (combine W .little bs).getLsbD (8 * i + j) = bs[i].getLsbD j := by
  subst hW
  rw [combine_little, getLsbD_packBytes bs i j hi hj]

/-- `BIG` combines the bytes as `LITTLE` combines them in reverse. -/
theorem combine_big {W : Nat} {bs : List Byte} (hW : W = 8 * bs.length) :
    combine W .big bs = combine W .little bs.reverse := by
  refine combine_eq hW fun i hi j hj => ?_
  rw [getLsbD_combine_little (by simpa using hW) (by simpa using hi) hj, List.getElem_reverse]
  rfl

/-- Under `LITTLE` the bytes that stand first give the low part of the value. -/
theorem combine_append_little {V W : Nat} {as bs : List Byte} (hV : V = 8 * bs.length) (hW : W = 8 * as.length) :
    combine (V + W) .little (as ++ bs) = combine V .little bs ++ combine W .little as := by
  refine combine_eq (by simp; omega) fun i hi j hj => ?_
  simp only [lane, BitVec.getLsbD_append]
  by_cases h : i < as.length
  · rw [if_pos (by omega), getLsbD_combine_little hW h hj, List.getElem_append_left h]
  · have hi' : i - as.length < bs.length := by simp at hi; omega
    rw [if_neg (by omega), show 8 * i + j - W = 8 * (i - as.length) + j by omega, getLsbD_combine_little hV hi' hj,
      List.getElem_append_right (by omega)]

theorem combine_four (b₀ b₁ b₂ b₃ : Byte) :
    combine 32 .little [b₀, b₁, b₂, b₃] =
      b₀.setWidth 32 ||| b₁.setWidth 32 <<< 8 ||| b₂.setWidth 32 <<< 16 ||| b₃.setWidth 32 <<< 24 := by
  simp [combine, lane]

theorem packBytes_singleton (b : Byte) : packBytes [b] = b :=
  BitVec.zero_width_append _ b

theorem combine_eight (b₀ b₁ b₂ b₃ b₄ b₅ b₆ b₇ : Byte) :
    combine 64 .little [b₀, b₁, b₂, b₃, b₄, b₅, b₆, b₇] = b₇ ++ b₆ ++ b₅ ++ b₄ ++ b₃ ++ b₂ ++ b₁ ++ b₀ := by
  have h : combine 64 .little [b₀, b₁, b₂, b₃, b₄, b₅, b₆, b₇] =
      packBytes [b₇] ++ b₆ ++ b₅ ++ b₄ ++ b₃ ++ b₂ ++ b₁ ++ b₀ :=
    combine_little [b₀, b₁, b₂, b₃, b₄, b₅, b₆, b₇]
  rw [h, packBytes_singleton]

/-! ### What a load answers and a store writes -/

section
variable {w W : Nat} {d : Desc} {off : Word32} {s : State}

/-- An admitted load answers the value its span combines to. -/
theorem load_of_combine {x : BitVec W} (mk : BitVec W → Response) (h : inBounds off w s.len = true)
    (hx : combine W (select d) (s.mem.getSpan (spanStart off) w) = x) : load W w mk d off s = respond (mk x) s := by
  rw [load_ok h, hx]

/-- A load in the spec's words, for a value its span combines to. -/
theorem load_next {x : BitVec W} (mk : BitVec W → Response)
    (hx : combine W (select d) (s.mem.getSpan (spanStart off) w) = x) :
    (0 ≤ off.toInt ∧ off.toInt + (w : Int) ≤ s.len →
      (.next (load W w mk d off s) : Host.Outcome State Fault Refusal) =
        .next { s with responses := s.responses ++ [mk x] }) ∧
    (off.toInt < 0 ∨ (s.len : Int) < off.toInt + (w : Int) →
      (.next (load W w mk d off s) : Host.Outcome State Fault Refusal) =
        .next { s with responses := s.responses ++ [.fault .bounds] }) := by
  refine ⟨fun h => ?_, fun h => ?_⟩
  · rw [load_of_combine mk ((inBounds_iff _ _ _).2 h) hx, respond_eq]
  · rw [load_bounds ((inBounds_eq_false_iff _ _ _).2 h), raise_eq]

/-- A store in the spec's words, for a function that names the byte of each place. -/
theorem store_next {v : BitVec W} {f : Nat → Byte}
    (hf : ∀ i, i < w → v.extractLsb' (8 * lane (select d) w i) 8 = f i) :
    (0 ≤ off.toInt ∧ off.toInt + (w : Int) ≤ s.len →
      ∃ m : Memory, (.next (store w d off v s) : Host.Outcome State Fault Refusal) =
          .next { s with mem := m, responses := s.responses ++ [.done] } ∧
        (∀ i, i < w → m.get (spanStart off + i) = f i) ∧
        ∀ k, (k < spanStart off ∨ spanStart off + w ≤ k) → m.get k = s.mem.get k) ∧
    (off.toInt < 0 ∨ (s.len : Int) < off.toInt + (w : Int) →
      (.next (store w d off v s) : Host.Outcome State Fault Refusal) =
        .next { s with responses := s.responses ++ [.fault .bounds] }) := by
  refine ⟨fun h => ?_, fun h => ?_⟩
  · have hb := (inBounds_iff _ _ _).2 h
    refine ⟨(store w d off v s).mem, by rw [store_ok hb]; rfl, fun i hi => (store_mem_get hb hi).trans (hf i hi),
      fun k hk => ?_⟩
    rw [store_mem hb, Memory.get_setSpan_out _ _ _ _ (by simpa using hk)]
  · rw [store_bounds ((inBounds_eq_false_iff _ _ _).2 h), raise_eq]

/-- Writing back the bytes a span holds changes no byte. -/
theorem Memory.get_setSpan_getSpan (m : Memory) (a n k : Nat) : (m.setSpan a (m.getSpan a n)).get k = m.get k := by
  rw [Memory.get_setSpan]
  split
  · rw [Memory.getElem_getSpan, Nat.add_sub_cancel' (by omega)]
  · rfl

/-- A store of what the load of its span answers changes no byte (R115). -/
theorem store_combine_getSpan_mem_get {t : State} (hW : W = 8 * w) (h : inBounds off w t.len = true) (k : Nat) :
    (store w d off (combine W (select d) (t.mem.getSpan (spanStart off) w)) t).mem.get k = t.mem.get k := by
  have hplace := place_combine W (select d) (t.mem.getSpan (spanStart off) w) (by simpa using hW)
  rw [Memory.length_getSpan] at hplace
  rw [store_mem h, hplace, Memory.get_setSpan_getSpan]

/-- A store and then a load of its span; a load and then a store of what it answers (R115). -/
theorem load_store_round_trips (hW : W = 8 * w) (mk : BitVec W → Response) (h : inBounds off w s.len = true) :
    (∀ v : BitVec W, (load W w mk d off (store w d off v s)).responses = s.responses ++ [.done, mk v]) ∧
    ∃ r, (load W w mk d off s).responses = s.responses ++ [mk r] ∧
      ∀ k, (store w d off r (load W w mk d off s)).mem.get k = s.mem.get k := by
  refine ⟨fun v => ?_, combine W (select d) (s.mem.getSpan (spanStart off) w), ?_, fun k => ?_⟩
  · simp [load_store hW v mk d h, store_responses h]
  · simp [load_ok h]
  · rw [load_ok h]
    exact store_combine_getSpan_mem_get (t := respond _ s) hW h k

end

/-! ### Two halves -/

theorem setWidth_shiftLeft_or_setWidth {m n : Nat} (x : BitVec m) (y : BitVec n) :
    x.setWidth (m + n) <<< n ||| y.setWidth (m + n) = x ++ y := by
  rw [BitVec.append_def, BitVec.shiftLeftZeroExtend_eq, BitVec.setWidth'_eq]

theorem combineHalves_little (hi lo : Word32) : combineHalves .little hi lo = hi ++ lo :=
  setWidth_shiftLeft_or_setWidth hi lo

theorem combineHalves_big (hi lo : Word32) : combineHalves .big hi lo = lo ++ hi :=
  setWidth_shiftLeft_or_setWidth lo hi

/-- Eight bytes combine to the halves their first four, as `low`, and their last four combine to (R116). -/
theorem combine_append_eq_combineHalves (o : Order) {as bs : List Byte} (ha : as.length = 4) (hb : bs.length = 4) :
    combine 64 o (as ++ bs) = combineHalves o (combine 32 o bs) (combine 32 o as) := by
  cases o with
  | little =>
    rw [combineHalves_little]
    exact combine_append_little (by rw [hb]) (by rw [ha])
  | big =>
    rw [combineHalves_big, combine_big (by simp [ha, hb]), combine_big (by rw [ha]), combine_big (by rw [hb]),
      List.reverse_append]
    exact combine_append_little (by rw [List.length_reverse, ha]) (by rw [List.length_reverse, hb])

theorem Memory.getSpan_append_getSpan (m : Memory) (a n k : Nat) :
    m.getSpan a n ++ m.getSpan (a + n) k = m.getSpan a (n + k) := by
  simp [Memory.getSpan, List.range_add, Nat.add_assoc]

/-- The offset four bytes on from that of an admitted eight-byte span: both halves are admitted, side by side. -/
theorem halves_inBounds {p q : Word32} {len : Nat} (h : inBounds p 8 len = true) (hq : q.toInt = p.toInt + 4) :
    inBounds p 4 len = true ∧ inBounds q 4 len = true ∧ spanStart q = spanStart p + 4 := by
  simp only [inBounds_iff, spanStart] at h ⊢
  omega

/-- TOLONG answers the halves that the two TOINT at its offset and four bytes on answer (R116). -/
theorem load_long_of_halves {d : Desc} {p q : Word32} {lo hi : Word32} {s : State} (h : inBounds p 8 s.len = true)
    (hq : q.toInt = p.toInt + 4) (hlo : combine 32 (select d) (s.mem.getSpan (spanStart p) 4) = lo)
    (hhi : combine 32 (select d) (s.mem.getSpan (spanStart q) 4) = hi) :
    load 64 8 .res64 d p s = respond (.res64 (combineHalves (select d) hi lo)) s := by
  obtain ⟨-, -, hstart⟩ := halves_inBounds h hq
  have hsplit := combine_append_eq_combineHalves (select d) (s.mem.length_getSpan (spanStart p) 4)
    (s.mem.length_getSpan (spanStart q) 4)
  rw [hlo, hhi, hstart, Memory.getSpan_append_getSpan] at hsplit
  exact load_of_combine .res64 h hsplit

/-- Two values stored side by side: each half of the eight bytes combines to the value stored there. -/
theorem combine_store_store {d : Desc} {p q : Word32} {lo hi : Word32} {s : State} (h : inBounds p 8 s.len = true)
    (hq : q.toInt = p.toInt + 4) :
    combine 32 (select d) ((store 4 d q hi (store 4 d p lo s)).mem.getSpan (spanStart p) 4) = lo ∧
      combine 32 (select d) ((store 4 d q hi (store 4 d p lo s)).mem.getSpan (spanStart q) 4) = hi := by
  obtain ⟨hp4, hq4, hstart⟩ := halves_inBounds h hq
  have hspan : ∀ (m : Memory) (a : Nat) (v : Word32),
      combine 32 (select d) ((m.setSpan a (place (select d) 4 v)).getSpan a 4) = v := fun m a v => by
    have hback := Memory.getSpan_setSpan m a (place (select d) 4 v)
    rw [length_place] at hback
    rw [hback, combine_place _ 4 v rfl]
  rw [store_mem (by rwa [store_len hp4]), store_mem hp4]
  refine ⟨?_, hspan _ _ _⟩
  rw [Memory.getSpan_congr fun k _ hk => Memory.get_setSpan_out _ (spanStart q) _ k (by omega), hspan]

/-! ### The statements of the integer codec -/

/-- Settles O25: the value of four bytes under `LITTLE`, written out, and `BIG` as the same bytes in reverse. -/
theorem toIntCombinesFourBytes : Obligations.ToIntCombinesFourBytes := by
  intro d off s b
  refine ⟨decodeOfEncodeIsIdentity (.toInt d off) rfl, load_next (w := 4) .res32 ?_⟩
  cases select d with
  | little => exact combine_four _ _ _ _
  | big => exact (combine_big (by simp)).trans (combine_four _ _ _ _)

/-- Settles O26: the byte of each place is the one of its lane. -/
theorem fromIntWritesFourBytes : Obligations.FromIntWritesFourBytes := by
  intro d off v s
  exact ⟨decodeOfEncodeIsIdentity (.fromInt d off v) rfl, store_next (w := 4) fun i _ => by cases select d <;> rfl⟩

/-- Settles O27: the value of eight bytes under `LITTLE`, written out, and `BIG` as the same bytes in reverse. -/
theorem toLongCombinesEightBytes : Obligations.ToLongCombinesEightBytes := by
  intro d off s b
  refine ⟨decodeOfEncodeIsIdentity (.toLong d off) rfl, load_next (w := 8) .res64 ?_⟩
  cases select d with
  | little => exact combine_eight _ _ _ _ _ _ _ _
  | big => exact (combine_big (by simp)).trans (combine_eight _ _ _ _ _ _ _ _)

/-- Settles O28: each order's combined halves are the two side by side. -/
theorem toLongPairPlacesTheHalves : Obligations.ToLongPairPlacesTheHalves := by
  intro d hi lo s
  refine ⟨decodeOfEncodeIsIdentity (.toLongP d hi lo) rfl, ?_⟩
  simp only [exec, execToLongP, respond_eq]
  cases select d with
  | little => rw [combineHalves_little]
  | big => rw [combineHalves_big]

/-- Settles O29: the byte of each place is the one of its lane. -/
theorem fromLongWritesEightBytes : Obligations.FromLongWritesEightBytes := by
  intro d off v s
  exact ⟨decodeOfEncodeIsIdentity (.fromLong d off v) rfl, store_next (w := 8) fun i _ => by cases select d <;> rfl⟩

/-- Settles O30: `load_store_round_trips` at both widths. -/
theorem integerRoundTrips : Obligations.IntegerRoundTrips := by
  intro d off s
  refine ⟨fun h => ?_, fun h => ?_⟩
  · obtain ⟨hv, r, hr, hk⟩ := load_store_round_trips (d := d) rfl Response.res32 ((inBounds_iff off 4 s.len).2 h)
    exact ⟨fun v => ⟨_, _, rfl, rfl, hv v⟩, r, _, _, rfl, hr, rfl, hk⟩
  · obtain ⟨hv, r, hr, hk⟩ := load_store_round_trips (d := d) rfl Response.res64 ((inBounds_iff off 8 s.len).2 h)
    exact ⟨fun v => ⟨_, _, rfl, rfl, hv v⟩, r, _, _, rfl, hr, rfl, hk⟩

/-- Settles O31: TOLONG answers the halves that two TOINT answer (`load_long_of_halves`), whether FROMINT wrote them or
they stood there before. -/
theorem pairEqualsLongOfTwoInts : Obligations.PairEqualsLongOfTwoInts := by
  intro d p q s h hq
  have hp8 : inBounds p 8 s.len = true := (inBounds_iff p 8 s.len).2 h
  obtain ⟨hp4, hq4, -⟩ := halves_inBounds hp8 hq
  refine ⟨fun hi lo => ?_, ?_⟩
  · have hlen : (store 4 d p lo s).len = s.len := store_len hp4
    have hq4' : inBounds q 4 (store 4 d p lo s).len = true := by rwa [hlen]
    have hp8' : inBounds p 8 (store 4 d q hi (store 4 d p lo s)).len = true := by rwa [store_len hq4', hlen]
    obtain ⟨hlo, hhi⟩ := combine_store_store (d := d) (lo := lo) (hi := hi) hp8 hq
    refine ⟨combineHalves (select d) hi lo, _, _, _, _, rfl, rfl,
      congrArg Host.Outcome.next (load_long_of_halves hp8' hq hlo hhi), rfl, ?_⟩
    simp [store_responses hq4', store_responses hp4]
  · obtain ⟨lo, hlo⟩ : ∃ v, combine 32 (select d) (s.mem.getSpan (spanStart p) 4) = v := ⟨_, rfl⟩
    obtain ⟨hi, hhi⟩ : ∃ v, combine 32 (select d) (s.mem.getSpan (spanStart q) 4) = v := ⟨_, rfl⟩
    refine ⟨lo, hi, combineHalves (select d) hi lo, _, _, _, _,
      congrArg Host.Outcome.next (load_of_combine .res32 hp4 hlo),
      congrArg Host.Outcome.next (load_of_combine .res32 hq4 hhi),
      congrArg Host.Outcome.next (load_long_of_halves hp8 hq hlo hhi), rfl, ?_⟩
    simp

/-- Settles O3: each word is the one the encoder writes for its command (`decodeOfEncodeIsIdentity`). -/
theorem specWordsDecodeToTheirCommands : Obligations.SpecWordsDecodeToTheirCommands :=
  ⟨decodeOfEncodeIsIdentity (.get .b) rfl,
    decodeOfEncodeIsIdentity (.toInt .b 0#32) rfl,
    decodeOfEncodeIsIdentity (.fromInt .l 0#32 1#32) rfl,
    decodeOfEncodeIsIdentity (.toLongP .l 0x11223344#32 0x55667788#32) rfl,
    decodeOfEncodeIsIdentity (.fromDouble .l 0#32 0x7FF8000000000001#64) rfl,
    decodeOfEncodeIsIdentity (.reverse .l 4#8 0xB#64) rfl,
    decodeOfEncodeIsIdentity (.bitStr2Long .l [0x31#8, 0x30#8, 0x31#8, 0x30#8]) rfl⟩

end Sys2Proof.Machine
end

section
/-! SUPPORT. The numeric bridge (R140 to R147): each floating command is the integer command of its width, so what the
integer codec's statements say of a value holds of a raw pattern. -/

namespace Sys2Proof.Machine

/-- Settles O40: the two families run the same load and the same store at each width. -/
theorem bridgeEqualsTheIntegerFamily : Obligations.BridgeEqualsTheIntegerFamily :=
  fun _ _ _ => ⟨rfl, rfl, fun _ => rfl, fun _ => rfl⟩

/-- The value of four bytes under `LITTLE` as a concatenation, the highest lane leftmost. -/
theorem combine_four_append (b₀ b₁ b₂ b₃ : Byte) : combine 32 .little [b₀, b₁, b₂, b₃] = b₃ ++ b₂ ++ b₁ ++ b₀ := by
  have h : combine 32 .little [b₀, b₁, b₂, b₃] = packBytes [b₃] ++ b₂ ++ b₁ ++ b₀ := combine_little [b₀, b₁, b₂, b₃]
  rw [h, packBytes_singleton]

/-- Settles O35: the pattern of four bytes under `LITTLE`, written out, and `BIG` as the same bytes in reverse. -/
theorem toFloatAnswersTheRawPattern : Obligations.ToFloatAnswersTheRawPattern := by
  intro d off s b
  refine ⟨decodeOfEncodeIsIdentity (.toFloat d off) rfl, load_next (w := 4) .res32 ?_⟩
  cases select d with
  | little => exact combine_four_append _ _ _ _
  | big => exact (combine_big (by simp)).trans (combine_four_append _ _ _ _)

/-- Settles O36: FROMFLOAT writes what FROMINT writes of the same pattern. -/
theorem fromFloatWritesTheRawPattern : Obligations.FromFloatWritesTheRawPattern := by
  intro d off v s
  obtain ⟨-, -, hfloat, -⟩ := bridgeEqualsTheIntegerFamily d off s
  obtain ⟨-, hint⟩ := fromIntWritesFourBytes d off v s
  rw [hfloat v]
  exact ⟨decodeOfEncodeIsIdentity (.fromFloat d off v) rfl, hint⟩

/-- Settles O37: TODOUBLE answers what TOLONG answers of the same span. -/
theorem toDoubleAnswersTheRawPattern : Obligations.ToDoubleAnswersTheRawPattern := by
  intro d off s b
  obtain ⟨-, hdouble, -⟩ := bridgeEqualsTheIntegerFamily d off s
  obtain ⟨-, hlong⟩ := toLongCombinesEightBytes d off s
  rw [hdouble]
  exact ⟨decodeOfEncodeIsIdentity (.toDouble d off) rfl, hlong⟩

/-- Settles O38: FROMDOUBLE writes what FROMLONG writes of the same pattern. -/
theorem fromDoubleWritesTheRawPattern : Obligations.FromDoubleWritesTheRawPattern := by
  intro d off v s
  obtain ⟨-, -, -, hdouble⟩ := bridgeEqualsTheIntegerFamily d off s
  obtain ⟨-, hlong⟩ := fromLongWritesEightBytes d off v s
  rw [hdouble v]
  exact ⟨decodeOfEncodeIsIdentity (.fromDouble d off v) rfl, hlong⟩

/-- Settles O39: the integer round trip of each width. The commands agree by definition (`bridgeEqualsTheIntegerFamily`), so
`integerRoundTrips` is read as it stands, and no pattern is set apart. -/
theorem floatPatternsRoundTrip : Obligations.FloatPatternsRoundTrip := by
  intro d off s
  obtain ⟨hword, hlong⟩ := integerRoundTrips d off s
  exact ⟨fun h => (hword h).1, fun h => (hlong h).1⟩

end Sys2Proof.Machine
end

section
/-! SUPPORT. The bit reversals (R160 to R165): what the two commands answer, the bits of a result on either side of its
count, and the two recursions that count down, over the reversed bits and in the loop of R163. -/

namespace Sys2Proof.Machine

/-! ### The answers -/

theorem exec_reverse (d : Desc) {n : Byte} (v : Word64) (s : State) (h : n.toNat ≤ 64) :
    exec (.reverse d n v) s = .next { s with responses := s.responses ++ [.res64 (reverseLow v n.toNat)] } :=
  congrArg Host.Outcome.next (withCount_ok h)

theorem exec_reverse_range (d : Desc) {n : Byte} (v : Word64) (s : State) (h : 64 < n.toNat) :
    exec (.reverse d n v) s = .next { s with responses := s.responses ++ [.fault .range] } :=
  congrArg Host.Outcome.next (withCount_range h)

theorem exec_reverseLeft (d : Desc) {n : Byte} (v : Word64) (s : State) (h : n.toNat ≤ 64) :
    exec (.reverseLeft d n v) s = .next { s with responses := s.responses ++ [.res64 (reverseHigh v n.toNat)] } :=
  congrArg Host.Outcome.next (withCount_ok h)

theorem exec_reverseLeft_range (d : Desc) {n : Byte} (v : Word64) (s : State) (h : 64 < n.toNat) :
    exec (.reverseLeft d n v) s = .next { s with responses := s.responses ++ [.fault .range] } :=
  congrArg Host.Outcome.next (withCount_range h)

/-! ### The bits of a result -/

theorem getLsbD_reverseLow_of_lt (v : Word64) {n i : Nat} (hn : n ≤ 64) (hi : i < n) :
    (reverseLow v n).getLsbD i = v.getLsbD (n - 1 - i) := by
  rw [getLsbD_reverseLow]
  simp [hi, show i < 64 by omega]

theorem getLsbD_reverseLow_of_ge (v : Word64) {n k : Nat} (hk : n ≤ k) : (reverseLow v n).getLsbD k = false := by
  simp [getLsbD_reverseLow, Nat.not_lt.2 hk]

theorem getLsbD_reverseHigh_of_ge (v : Word64) {n k : Nat} (hlow : 64 - n ≤ k) (hk : k < 64) :
    (reverseHigh v n).getLsbD k = v.getLsbD (64 - n + (63 - k)) := by
  rw [getLsbD_reverseHigh]
  simp [hk, show 63 - k < n by omega]

theorem getLsbD_reverseHigh_of_lt (v : Word64) {n k : Nat} (hk : k < 64 - n) : (reverseHigh v n).getLsbD k = false := by
  simp [getLsbD_reverseHigh, show ¬ 63 - k < n by omega]

theorem reverseLow_no_bits (v : Word64) : reverseLow v 0 = 0#64 :=
  BitVec.eq_of_getLsbD_eq fun _ _ => (getLsbD_reverseLow_of_ge v (Nat.zero_le _)).trans BitVec.getLsbD_zero.symm

theorem reverseHigh_no_bits (v : Word64) : reverseHigh v 0 = 0#64 :=
  BitVec.eq_of_getLsbD_eq fun _ hk => (getLsbD_reverseHigh_of_lt v hk).trans BitVec.getLsbD_zero.symm

theorem reverseLow_zero (n : Nat) : reverseLow 0#64 n = 0#64 := by
  apply BitVec.eq_of_getLsbD_eq
  simp [getLsbD_reverseLow]

/-- Settles O41: the bits below the count, and those at it and above. -/
theorem reverseReversesTheLowestBits : Obligations.ReverseReversesTheLowestBits := by
  refine fun d n v s => ⟨decodeOfEncodeIsIdentity (.reverse d n v) rfl, fun hn => ?_, exec_reverse_range d v s⟩
  exact ⟨_, exec_reverse d v s hn, fun _ => getLsbD_reverseLow_of_lt v hn, fun _ => getLsbD_reverseLow_of_ge v⟩

/-- Settles O42: the bits of the count's width at the top, and those below. -/
theorem reverseLeftReversesTheHighestBits : Obligations.ReverseLeftReversesTheHighestBits := by
  refine fun d n v s => ⟨decodeOfEncodeIsIdentity (.reverseLeft d n v) rfl, fun hn => ?_, exec_reverseLeft_range d v s⟩
  refine ⟨_, exec_reverseLeft d v s hn, fun i hi => ?_, fun _ => getLsbD_reverseHigh_of_lt v⟩
  rw [getLsbD_reverseHigh_of_ge v (by omega) (by omega), show 63 - (63 - i) = i by omega]

/-- Settles O43: a count of 0 is admitted, and a reversal of no bits is 0. -/
theorem reversalOfNoBitsIsZero : Obligations.ReversalOfNoBitsIsZero := by
  intro d v s
  have hn : (0#8).toNat ≤ 64 := Nat.zero_le _
  refine ⟨(exec_reverse d v s hn).trans ?_, (exec_reverseLeft d v s hn).trans ?_⟩
  · simp [reverseLow_no_bits]
  · simp [reverseHigh_no_bits]

/-! ### The iterative form -/

/-- The lowest bit goes to the top of the result, and the bits above it are reversed below. -/
theorem reverseLow_succ (v : Word64) (m : Nat) :
    reverseLow v (m + 1) = (if v.getLsbD 0 then 1#64 else 0#64) <<< m ||| reverseLow (v >>> 1) m := by
  apply BitVec.eq_of_getLsbD_eq
  intro k hk
  have hbit : ∀ j, (if v.getLsbD 0 then 1#64 else 0#64).getLsbD j = (decide (j = 0) && v.getLsbD 0) := by
    intro j
    cases v.getLsbD 0 <;> simp [BitVec.getLsbD_one]
  rw [BitVec.getLsbD_or, BitVec.getLsbD_shiftLeft, hbit, getLsbD_reverseLow, getLsbD_reverseLow,
    BitVec.getLsbD_ushiftRight]
  rcases Nat.lt_trichotomy k m with hlt | rfl | hgt
  · simp [hk, hlt, show k < m + 1 by omega, show 1 + (m - 1 - k) = m - k by omega]
  · simp [hk]
  · simp [show ¬ k < m by omega, show ¬ k < m + 1 by omega, show k - m ≠ 0 by omega]

/-- The loop puts the reversed bits of what remains below its accumulator; when it ends early what remains is zero, and
so are its reversed bits. -/
theorem reverseLoop_eq (r v : Word64) (m : Nat) : reverseLoop r v m = r <<< m ||| reverseLow v m := by
  induction m generalizing r v with
  | zero => simp [reverseLoop, reverseLow_no_bits]
  | succ m ih =>
    have hstep : reverseLoop r v (m + 1) =
        (r <<< 1 ||| (if v.getLsbD 0 then 1#64 else 0#64)) <<< m ||| reverseLow (v >>> 1) m := by
      rw [reverseLoop]
      split
      next hzero => rw [hzero, reverseLow_zero, BitVec.or_zero]
      next => exact ih _ _
    rw [hstep, reverseLow_succ, BitVec.shiftLeft_or_distrib, ← BitVec.shiftLeft_add, Nat.add_comm 1 m,
      BitVec.or_assoc]

/-- Settles O44: the loop from an empty accumulator is the reversal. -/
theorem reverseShortCircuitIsUnobservable : Obligations.ReverseShortCircuitIsUnobservable := by
  intro d n v s hn
  have hloop : reverseIterative v n.toNat = reverseLow v n.toNat := by simp [reverseIterative, reverseLoop_eq]
  rw [hloop]
  exact exec_reverse d v s hn

/-! ### The laws of R164 -/

theorem getLsbD_reverseLow_twice (v : Word64) {n : Nat} (hn : n ≤ 64) (k : Nat) :
    (reverseLow (reverseLow v n) n).getLsbD k = (decide (k < n) && v.getLsbD k) := by
  by_cases hk : k < n
  · rw [getLsbD_reverseLow_of_lt _ hn hk, getLsbD_reverseLow_of_lt _ hn (by omega),
      show n - 1 - (n - 1 - k) = k by omega]
    simp [hk]
  · rw [getLsbD_reverseLow_of_ge _ (Nat.not_lt.1 hk)]
    simp [hk]

/-- The top bits moved down, reversed there and moved back up. -/
theorem reverseHigh_eq_shifted_reverseLow (v : Word64) {n : Nat} (hn : n ≤ 64) :
    reverseHigh v n = reverseLow (v >>> (64 - n)) n <<< (64 - n) := by
  apply BitVec.eq_of_getLsbD_eq
  intro k hk
  rw [BitVec.getLsbD_shiftLeft]
  by_cases hlow : k < 64 - n
  · rw [getLsbD_reverseHigh_of_lt v hlow]
    simp [hlow]
  · rw [getLsbD_reverseHigh_of_ge v (Nat.not_lt.1 hlow) hk, getLsbD_reverseLow_of_lt _ hn (by omega),
      BitVec.getLsbD_ushiftRight, show n - 1 - (k - (64 - n)) = 63 - k by omega]
    simp [hk, hlow]

theorem getLsbD_reverseHigh_twice (v : Word64) (n k : Nat) :
    (reverseHigh (reverseHigh v n) n).getLsbD k = (decide (64 - n ≤ k) && v.getLsbD k) := by
  rcases Nat.lt_or_ge k 64 with hk | hk
  · by_cases hlow : 64 - n ≤ k
    · rw [getLsbD_reverseHigh_of_ge _ hlow hk, getLsbD_reverseHigh_of_ge _ (by omega) (by omega),
        show 64 - n + (63 - (64 - n + (63 - k))) = k by omega]
      simp [hlow]
    · rw [getLsbD_reverseHigh_of_lt _ (Nat.not_le.1 hlow)]
      simp [hlow]
  · rw [BitVec.getLsbD_of_ge _ k hk, BitVec.getLsbD_of_ge _ k hk, Bool.and_false]

/-- A value with the bits outside `p` cleared is the value itself when it has none there. -/
theorem eq_of_getLsbD_masked {p : Nat → Prop} [DecidablePred p] {v w : Word64}
    (hw : ∀ k, w.getLsbD k = (decide (p k) && v.getLsbD k)) (hv : ∀ k, ¬ p k → v.getLsbD k = false) : w = v := by
  apply BitVec.eq_of_getLsbD_eq
  intro k _
  by_cases hp : p k
  · simp [hw, hp]
  · rw [hw, hv k hp, Bool.and_false]

/-- Settles O45: the bits of each double reversal, and the register itself where the cleared bits are clear. -/
theorem reversalTwiceIsTheMaskedValue : Obligations.ReversalTwiceIsTheMaskedValue := by
  intro d n v s hn
  have hlow := getLsbD_reverseLow_twice v hn
  have hhigh := getLsbD_reverseHigh_twice v n.toNat
  refine ⟨⟨_, _, exec_reverse d v s hn, exec_reverse d _ s hn, hlow, fun hfits => ?_⟩,
    ⟨_, _, exec_reverseLeft d v s hn, exec_reverseLeft d _ s hn, hhigh, fun hfits => ?_⟩⟩
  · exact eq_of_getLsbD_masked hlow fun k hk => hfits k (Nat.not_lt.1 hk)
  · exact eq_of_getLsbD_masked hhigh fun k hk => hfits k (Nat.not_le.1 hk)

/-- The one bit set goes from the bottom of the count's width to its top. -/
theorem reverseLow_one (m : Nat) : reverseLow 1#64 (m + 1) = 1#64 <<< m := by
  have hrest : 1#64 >>> 1 = 0#64 := by decide
  rw [reverseLow_succ, hrest, reverseLow_zero]
  simp

/-- Settles O46: the shifted form, and the reversals of 0 and of 1. -/
theorem reverseLeftIsShiftedReverse : Obligations.ReverseLeftIsShiftedReverse := by
  refine fun d n s => ⟨fun _ hn v => ⟨_, exec_reverse d _ s hn, ?_⟩, fun hn => ?_, ?_, ?_⟩
  · rw [← reverseHigh_eq_shifted_reverseLow v hn]
    exact exec_reverseLeft d v s hn
  · rw [exec_reverse d _ s hn, reverseLow_zero]
  · have hone : reverseLow 1#64 (1#8).toNat = 1#64 := reverseLow_one 0
    rw [exec_reverse d _ s (by decide), hone]
  · have hone : reverseLow 1#64 (64#8).toNat = 0x8000000000000000#64 := reverseLow_one 63
    rw [exec_reverse d _ s (by decide), hone]

end Sys2Proof.Machine
end

section
/-! SUPPORT. The bit strings (R180 to R188): what the four commands answer, a string's characters read back from what it
packs into, the renderings of a shifted and of a reversed register, and the bytes of a string under the two orders. -/

namespace Sys2Proof.Machine

/-! ### The answers -/

theorem exec_toBitStr (d : Desc) {n : Byte} (v : Word64) (s : State) (h : n.toNat ≤ 64) :
    exec (.toBitStr d n v) s = .next { s with responses := s.responses ++ [.str (topBitString v n.toNat)] } :=
  congrArg Host.Outcome.next (withCount_ok h)

theorem exec_toBitStr_range (d : Desc) {n : Byte} (v : Word64) (s : State) (h : 64 < n.toNat) :
    exec (.toBitStr d n v) s = .next { s with responses := s.responses ++ [.fault .range] } :=
  congrArg Host.Outcome.next (withCount_range h)

theorem exec_toLastBitStr (d : Desc) {n : Byte} (v : Word64) (s : State) (h : n.toNat ≤ 64) :
    exec (.toLastBitStr d n v) s = .next { s with responses := s.responses ++ [.str (lastBitString v n.toNat)] } :=
  congrArg Host.Outcome.next (withCount_ok h)

theorem exec_toLastBitStr_range (d : Desc) {n : Byte} (v : Word64) (s : State) (h : 64 < n.toNat) :
    exec (.toLastBitStr d n v) s = .next { s with responses := s.responses ++ [.fault .range] } :=
  congrArg Host.Outcome.next (withCount_range h)

theorem exec_fromBitStr (d : Desc) {cs : List Byte} (s : State) (h : ∀ x ∈ cs, isCharCode x) :
    exec (.fromBitStr d cs) s =
      .next { s with responses := s.responses ++ [.bytes (stringBytes (select d) cs)] } := by
  simp [exec, execFromBitStr, (all_isBitChar_iff cs).2 h, respond_eq]

theorem exec_fromBitStr_badChar (d : Desc) {cs : List Byte} (s : State) (h : ∃ x ∈ cs, ¬ isCharCode x) :
    exec (.fromBitStr d cs) s = .next { s with responses := s.responses ++ [.fault .badChar] } := by
  simp [exec, execFromBitStr, (all_isBitChar_eq_false_iff cs).2 h, raise_eq]

theorem exec_bitStr2Long (d : Desc) {cs : List Byte} (s : State) (hlen : cs.length ≤ 64) (h : ∀ x ∈ cs, isCharCode x) :
    exec (.bitStr2Long d cs) s = .next { s with responses := s.responses ++ [.res64 (packString cs)] } := by
  simp [exec, execBitStr2Long, Config.registerBits, Nat.not_lt.2 hlen, (all_isBitChar_iff cs).2 h, respond_eq]

theorem exec_bitStr2Long_badChar (d : Desc) {cs : List Byte} (s : State) (hlen : cs.length ≤ 64)
    (h : ∃ x ∈ cs, ¬ isCharCode x) :
    exec (.bitStr2Long d cs) s = .next { s with responses := s.responses ++ [.fault .badChar] } := by
  simp [exec, execBitStr2Long, Config.registerBits, Nat.not_lt.2 hlen, (all_isBitChar_eq_false_iff cs).2 h, raise_eq]

theorem exec_bitStr2Long_tooLong (d : Desc) {cs : List Byte} (s : State) (hlen : 64 < cs.length) :
    exec (.bitStr2Long d cs) s = .next { s with responses := s.responses ++ [.fault .invalidInput] } := by
  simp [exec, execBitStr2Long, Config.registerBits, hlen, raise_eq]

/-! ### The renderers -/

/-- Settles O47: the characters of `topBitString`, one by one. -/
theorem toBitStringReportsTheTopBits : Obligations.ToBitStringReportsTheTopBits := by
  refine fun d n v s => ⟨decodeOfEncodeIsIdentity (.toBitStr d n v) rfl, fun hn => ?_, exec_toBitStr_range d v s⟩
  exact ⟨_, exec_toBitStr d v s hn, length_topBitString v _, getElem_topBitString v _⟩

/-- Settles O48: the characters of `lastBitString`, one by one. -/
theorem toLastBitStringReportsTheLowestBits : Obligations.ToLastBitStringReportsTheLowestBits := by
  refine fun d n v s =>
    ⟨decodeOfEncodeIsIdentity (.toLastBitStr d n v) rfl, fun hn => ?_, exec_toLastBitStr_range d v s⟩
  exact ⟨_, exec_toLastBitStr d v s hn, length_lastBitString v _, getElem_lastBitString v _⟩

/-- Settles O49: a count of 0 is admitted, and a rendering of no bits is empty. -/
theorem renderersAtCountZeroAndAbove64 : Obligations.RenderersAtCountZeroAndAbove64 := by
  intro d v s
  have hzero : (0#8).toNat ≤ 64 := Nat.zero_le _
  exact ⟨exec_toBitStr d v s hzero, exec_toLastBitStr d v s hzero,
    fun _ hn => ⟨exec_toBitStr_range d v s hn, exec_toLastBitStr_range d v s hn⟩⟩

/-- The lowest bits are the top bits of the register moved up (R187 (d)). -/
theorem topBitString_shiftLeft (v : Word64) {n : Nat} (hn : n ≤ 64) :
    topBitString (v <<< (64 - n)) n = lastBitString v n := by
  apply List.ext_getElem (by simp)
  intro k hk _
  simp only [length_topBitString] at hk
  rw [getElem_topBitString, getElem_lastBitString, BitVec.getLsbD_shiftLeft,
    show 63 - k - (64 - n) = n - 1 - k by omega]
  simp [show 63 - k < 64 by omega, show ¬ 63 - k < 64 - n by omega]

/-- REVERSELEFT reverses what the top bits render to (R187 (e)). -/
theorem topBitString_reverseHigh (v : Word64) {n : Nat} (hn : n ≤ 64) :
    topBitString (reverseHigh v n) n = (topBitString v n).reverse := by
  apply List.ext_getElem (by simp)
  intro k hk _
  simp only [length_topBitString] at hk
  rw [List.getElem_reverse, getElem_topBitString, getElem_topBitString, length_topBitString,
    getLsbD_reverseHigh_of_ge v (by omega) (by omega), show 64 - n + (63 - (63 - k)) = 63 - (n - 1 - k) by omega]

/-- REVERSE reverses what the lowest bits render to (R187 (e)). -/
theorem lastBitString_reverseLow (v : Word64) {n : Nat} (hn : n ≤ 64) :
    lastBitString (reverseLow v n) n = (lastBitString v n).reverse := by
  apply List.ext_getElem (by simp)
  intro k hk _
  simp only [length_lastBitString] at hk
  rw [List.getElem_reverse, getElem_lastBitString, getElem_lastBitString, length_lastBitString,
    getLsbD_reverseLow_of_lt v hn (by omega)]

/-- Settles O55: the shifted rendering, and each renderer with the reversal of its end of the register. -/
theorem reversalReversesTheString : Obligations.ReversalReversesTheString := by
  intro d n v s _ hn
  refine ⟨?_, ⟨_, _, exec_reverseLeft d v s hn, exec_toBitStr d v s hn, ?_⟩,
    ⟨_, _, exec_reverse d v s hn, exec_toLastBitStr d v s hn, ?_⟩⟩
  · rw [exec_toLastBitStr d v s hn, exec_toBitStr d _ s hn, topBitString_shiftLeft v hn]
  · rw [exec_toBitStr d _ s hn, topBitString_reverseHigh v hn]
  · rw [exec_toLastBitStr d _ s hn, lastBitString_reverseLow v hn]

/-! ### A string and the register it packs -/

theorem getLsbD_packString_of_lt {cs : List Byte} {k : Nat} (hlen : cs.length ≤ 64) (hk : k < cs.length) :
    (packString cs).getLsbD (63 - k) = bit cs[k] := by
  rw [getLsbD_packString, show 63 - (63 - k) = k by omega, bitAt_of_lt hk]
  simp [show 63 - k < 64 by omega]

theorem getLsbD_packString_below {cs : List Byte} {j : Nat} (hj : j < 64 - cs.length) :
    (packString cs).getLsbD j = false := by
  rw [getLsbD_packString, bitAt_of_ge (by omega), Bool.and_false]

/-- Settles O50: the three answers, and the packed bits on either side of the string's length. -/
theorem bitStringPacksFromTheTop : Obligations.BitStringPacksFromTheTop := by
  intro c d cs s
  obtain ⟨-, hdecode⟩ := stringVectorsDecodeToTheirCharacters c d cs
  refine ⟨hdecode, exec_bitStr2Long_tooLong d s, exec_bitStr2Long_badChar d s, fun hlen hcs => ?_⟩
  exact ⟨_, exec_bitStr2Long d s hlen hcs, fun _ hk => getLsbD_packString_of_lt hlen hk,
    fun _ hj => getLsbD_packString_below hj⟩

theorem isCharCode_of_mem_topBitString {v : Word64} {n : Nat} : ∀ x ∈ topBitString v n, isCharCode x := by
  rw [← all_isBitChar_iff]
  simp [topBitString]

theorem bitAt_topBitString (v : Word64) (n k : Nat) :
    bitAt (topBitString v n) k = (decide (k < n) && v.getLsbD (63 - k)) := by
  by_cases hk : k < n
  · rw [bitAt_of_lt (by simpa using hk), getElem_topBitString, bit_chr]
    simp [hk]
  · rw [bitAt_of_ge (by simpa using hk)]
    simp [hk]

/-- The top `n` bits rendered and packed again: the register without the bits below (R187 (b)). -/
theorem getLsbD_packString_topBitString (v : Word64) {n : Nat} (hn : n ≤ 64) (k : Nat) :
    (packString (topBitString v n)).getLsbD k = (decide (64 - n ≤ k) && v.getLsbD k) := by
  rw [getLsbD_packString, bitAt_topBitString]
  rcases Nat.lt_or_ge k 64 with hk | hk
  · simp [hk, show 63 - (63 - k) = k by omega, show 63 - k < n ↔ 64 - n ≤ k by omega]
  · simp [Nat.not_lt.2 hk, BitVec.getLsbD_of_ge v k hk]

theorem packString_topBitString_whole (v : Word64) : packString (topBitString v 64) = v :=
  eq_of_getLsbD_masked (getLsbD_packString_topBitString v (Nat.le_refl _)) (by simp)

/-- The characters of a string's bits, read beyond its end, are the string followed by '0's. -/
theorem map_range_chr_bitAt {cs : List Byte} {m : Nat} (h : ∀ x ∈ cs, isCharCode x) (hm : cs.length ≤ m) :
    (List.range m).map (fun k => chr (bitAt cs k)) = cs ++ List.replicate (m - cs.length) 0x30#8 := by
  apply List.ext_getElem (by simp; omega)
  intro k _ _
  rw [List.getElem_map, List.getElem_range, List.getElem_append]
  split
  next hk => rw [bitAt_of_lt hk, chr_bit ((isBitChar_iff _).2 (h _ (List.getElem_mem hk)))]
  next hk => rw [bitAt_of_ge (Nat.not_lt.1 hk), List.getElem_replicate]; rfl

/-- A string packed and rendered again at its length (R187 (c)). -/
theorem topBitString_packString {cs : List Byte} (h : ∀ x ∈ cs, isCharCode x) (hlen : cs.length ≤ 64) :
    topBitString (packString cs) cs.length = cs := by
  have hbits : topBitString (packString cs) cs.length = (List.range cs.length).map fun k => chr (bitAt cs k) := by
    refine List.map_congr_left fun k hk => ?_
    rw [List.mem_range] at hk
    rw [getLsbD_packString_of_lt hlen hk, bitAt_of_lt hk]
  rw [hbits, map_range_chr_bitAt h (Nat.le_refl _)]
  simp

/-- Settles O54: the three round trips of `topBitString` and `packString`. -/
theorem bitStringRoundTrips : Obligations.BitStringRoundTrips := by
  refine fun d s => ⟨fun v => ?_, fun n v hn => ?_, fun cs hlen hcs => ?_⟩
  · refine ⟨_, exec_toBitStr d v s (by decide), length_topBitString v _, isCharCode_of_mem_topBitString, ?_⟩
    have hwhole : packString (topBitString v (64#8).toNat) = v := packString_topBitString_whole v
    rw [exec_bitStr2Long d s (by simp) isCharCode_of_mem_topBitString, hwhole]
  · exact ⟨_, _, exec_toBitStr d v s hn, exec_bitStr2Long d s (by simpa using hn) isCharCode_of_mem_topBitString,
      getLsbD_packString_topBitString v hn⟩
  · have hcount : (BitVec.ofNat 8 cs.length).toNat = cs.length := Nat.mod_eq_of_lt (by omega)
    refine ⟨_, exec_bitStr2Long d s hlen hcs, ?_⟩
    rw [exec_toBitStr d _ s (by omega), hcount, topBitString_packString hcs hlen]

/-! ### The bytes of a string -/

theorem stringBytes_big (cs : List Byte) : stringBytes .big cs = (List.range (byteCount cs)).map (groupByte cs) := rfl

theorem stringBytes_little (cs : List Byte) : stringBytes .little cs = (stringBytes .big cs).reverse := by
  apply List.ext_getElem (by simp)
  intro i _ _
  simp [stringBytes]

/-- Settles O53: under `LITTLE` the bytes are those under `BIG` in reverse. -/
theorem fromBitStringOrdersAreReversed : Obligations.FromBitStringOrdersAreReversed := by
  intro d e cs s hd he hcs
  refine ⟨_, exec_fromBitStr d s hcs, ?_⟩
  rw [exec_fromBitStr e s hcs, hd, he, stringBytes_little]

theorem getElem?_stringBytes_big {cs : List Byte} {g : Nat} (hg : g < byteCount cs) :
    (stringBytes .big cs)[g]? = some (groupByte cs g) := by
  simp [stringBytes_big, hg]

theorem getElem?_stringBytes_little {cs : List Byte} {g : Nat} (hg : g < byteCount cs) :
    (stringBytes .little cs)[byteCount cs - 1 - g]? = some (groupByte cs g) := by
  rw [stringBytes_little, List.getElem?_reverse (by simp; omega), length_stringBytes,
    show byteCount cs - 1 - (byteCount cs - 1 - g) = g by omega, getElem?_stringBytes_big hg]

theorem bitAt_eq_decide (cs : List Byte) (k : Nat) : bitAt cs k = decide (cs[k]? = some 0x31#8) := by
  by_cases hk : k < cs.length
  · rw [bitAt_of_lt hk, bit_eq]
    simp [hk]
  · rw [bitAt_of_ge (Nat.not_lt.1 hk)]
    simp [hk]

/-- Settles O51: the byte of each group, and its bits from the first character down. -/
theorem fromBitStringPacksGroupsOfEight : Obligations.FromBitStringPacksGroupsOfEight := by
  intro c d cs s
  obtain ⟨hdecode, -⟩ := stringVectorsDecodeToTheirCharacters c d cs
  refine ⟨hdecode, exec_fromBitStr_badChar d s, fun hcs => ?_⟩
  refine ⟨_, exec_fromBitStr d s hcs, length_stringBytes _ cs, fun g j b hg hj hb => ?_⟩
  rw [length_stringBytes] at hg hb
  obtain rfl : groupByte cs g = b := by
    refine Option.some.inj (Eq.trans ?_ hb)
    cases select d with
    | big => exact (getElem?_stringBytes_big hg).symm
    | little => exact (getElem?_stringBytes_little hg).symm
  rw [getLsbD_groupByte, show 7 - (7 - j) = j by omega, bitAt_eq_decide]
  simp [show 7 - j < 8 by omega]

/-! ### The rendering of a string's bytes -/

theorem byteString_groupByte (cs : List Byte) (g : Nat) :
    byteString (groupByte cs g) = (List.range 8).map fun k => chr (bitAt cs (8 * g + k)) := by
  refine List.map_congr_left fun k hk => ?_
  rw [List.mem_range] at hk
  rw [getLsbD_groupByte, show 7 - (7 - k) = k by omega]
  simp [show 7 - k < 8 by omega]

/-- The first `n` groups render to the first `8 * n` characters, the padding among them. -/
theorem flatMap_byteString_groupByte (cs : List Byte) (n : Nat) :
    ((List.range n).map (groupByte cs)).flatMap byteString = (List.range (8 * n)).map fun k => chr (bitAt cs k) := by
  induction n with
  | zero => rfl
  | succ n ih =>
    rw [List.range_succ, List.map_append, List.flatMap_append, ih, Nat.mul_succ, List.range_add, List.map_append]
    simp [byteString_groupByte]

/-- Either order renders its bytes as `BIG` renders its own. -/
theorem render_stringBytes (o : Order) (cs : List Byte) :
    render o (stringBytes o cs) = (stringBytes .big cs).flatMap byteString := by
  cases o with
  | big => rfl
  | little => rw [stringBytes_little, render, List.reverse_reverse]

/-- Settles O52: the groups render to the string's characters, read on beyond its end. -/
theorem fromBitStringRendersBack : Obligations.FromBitStringRendersBack := by
  intro d cs s hcs
  refine ⟨_, exec_fromBitStr d s hcs, ?_⟩
  rw [render_stringBytes, stringBytes_big, flatMap_byteString_groupByte]
  exact map_range_chr_bitAt hcs (by unfold byteCount; omega)

/-! ### A string's bytes as a long -/

theorem groupByte_of_ge {cs : List Byte} {g : Nat} (hg : byteCount cs ≤ g) : groupByte cs g = 0#8 := by
  apply BitVec.eq_of_getLsbD_eq
  intro j _
  unfold byteCount at hg
  rw [getLsbD_groupByte, bitAt_of_ge (by omega)]
  simp

theorem byteCount_le_eight {cs : List Byte} (hlen : cs.length ≤ 64) : byteCount cs ≤ 8 := by
  unfold byteCount
  omega

/-- Under `BIG`, a string's bytes and the zeros after them are its first eight groups. -/
theorem stringBytes_big_append_zeros {cs : List Byte} (hlen : cs.length ≤ 64) :
    stringBytes .big cs ++ List.replicate (8 - byteCount cs) 0#8 = (List.range 8).map (groupByte cs) := by
  have hcount := byteCount_le_eight hlen
  apply List.ext_getElem (by simp; omega)
  intro g _ _
  rw [List.getElem_append]
  split
  next hg => simp [stringBytes_big]
  next hg =>
    rw [length_stringBytes] at hg
    simp [groupByte_of_ge (Nat.not_lt.1 hg)]

/-- Eight groups under `BIG` combine to the packed string: lane `i` is group `7 - i`. -/
theorem combine_groupBytes (cs : List Byte) : combine 64 .big ((List.range 8).map (groupByte cs)) = packString cs := by
  refine combine_eq (by simp) fun i hi j hj => ?_
  simp only [List.length_map, List.length_range] at hi
  simp only [lane, List.length_map, List.length_range, List.getElem_map, List.getElem_range, getLsbD_groupByte,
    getLsbD_packString]
  rw [show 63 - (8 * i + j) = 8 * (8 - 1 - i) + (7 - j) by omega]
  simp [hj, show 8 * i + j < 64 by omega]

/-- The eight-byte buffer under `BIG`: the string's bytes are the most significant ones where they come first. -/
theorem combine_stringBytes_append_zeros {cs : List Byte} (hlen : cs.length ≤ 64) :
    combine 64 .big (stringBytes .big cs ++ List.replicate (8 - byteCount cs) 0#8) = packString cs := by
  rw [stringBytes_big_append_zeros hlen, combine_groupBytes]

/-- The eight-byte buffer under `LITTLE` is the one under `BIG` in reverse. -/
theorem combine_zeros_append_stringBytes {cs : List Byte} (hlen : cs.length ≤ 64) :
    combine 64 .little (List.replicate (8 - byteCount cs) 0#8 ++ stringBytes .little cs) = packString cs := by
  have hcount := byteCount_le_eight hlen
  have hreverse : List.replicate (8 - byteCount cs) 0#8 ++ stringBytes .little cs =
      (stringBytes .big cs ++ List.replicate (8 - byteCount cs) 0#8).reverse := by simp [stringBytes_little]
  rw [hreverse, ← combine_big (by simp; omega), combine_stringBytes_append_zeros hlen]

/-- Settles O56: TOLONG of the whole buffer combines its bytes, and they combine to the packed string. -/
theorem stringBytesReadAsThePackedLong : Obligations.StringBytesReadAsThePackedLong := by
  intro d cs s t hlen hcs
  refine ⟨_, _, exec_bitStr2Long d s hlen hcs, exec_fromBitStr d s hcs, fun ht hbytes => ?_⟩
  have hb : inBounds 0#32 8 t.len = true := by rw [ht, inBounds_whole]
  have hspan : t.mem.getSpan (spanStart 0#32) 8 = t.bytes := by rw [State.bytes, ht]; rfl
  refine congrArg Host.Outcome.next (load_of_combine .res64 hb ?_)
  rw [hspan, hbytes, length_stringBytes]
  cases select d with
  | big => exact combine_stringBytes_append_zeros hlen
  | little => exact combine_zeros_append_stringBytes hlen

end Sys2Proof.Machine
end

section
/-! SUPPORT. The registry (R210, R211): the selector read on the two bits of a descriptor, and the canonical descriptor
as its right inverse. -/

namespace Sys2Proof.Machine

/-- The selector of R210 on the bits of the descriptor (R87). -/
theorem select_eq_ite_toBits (d : Desc) : select d = if d.toBits = 1#2 then Order.big else Order.little := by
  cases d with
  | l | b | x2 | x3 => rfl

theorem canonicalDesc_eq_ite (o : Order) : canonicalDesc o = if o = .big then 0x00000001#32 else 0x00000000#32 := by
  cases o with
  | little | big => rfl

/-- The two low bits of an order's canonical descriptor select that order. -/
theorem select_ofBits_canonicalDesc (o : Order) : select (Desc.ofBits ((canonicalDesc o).extractLsb' 0 2)) = o := by
  cases o with
  | little | big => rfl

/-- Settles O6: a decoded command's descriptor is the one of its `ORD` field (`Bits.desc_instr`), and the selector tests
the field's bits. -/
theorem selectorIsBigOnlyForDescriptor01 : Obligations.SelectorIsBigOnlyForDescriptor01 := by
  intro c i h
  obtain ⟨-, -, -, rfl⟩ := decode_eq_ok h
  rw [c.desc_instr, select_eq_ite_toBits, Desc.toBits_ofBits]

/-- Settles O24: the answer is the canonical descriptor of the selected order, from which the selector gives the order
back. -/
theorem getAnswersTheCanonicalDescriptor : Obligations.GetAnswersTheCanonicalDescriptor :=
  fun d _ => ⟨decodeOfEncodeIsIdentity (.get d) rfl, canonicalDesc (select d), rfl, canonicalDesc_eq_ite _,
    select_ofBits_canonicalDesc _⟩

end Sys2Proof.Machine
end

section
/-! SUPPORT. The status byte of a response (R80, R220). -/

namespace Sys2Proof.Machine

theorem FaultCode.code_toNat_le (f : FaultCode) : f.code.toNat ≤ 5 := by
  cases f with
  | bounds | invalidInput | range | badChar | illegal => decide

theorem FaultCode.code_ne_zero (f : FaultCode) : f.code ≠ 0x00#8 := by
  cases f with
  | bounds | invalidInput | range | badChar | illegal => decide

theorem Response.status_toNat_le (r : Response) : r.status.toNat ≤ 5 := by
  cases r with
  | fault f => exact f.code_toNat_le
  | done | res32 | res64 | str | bytes => exact Nat.zero_le 5

theorem Response.status_eq_zero_iff (r : Response) : r.status = 0x00#8 ↔ ∀ f, r ≠ .fault f := by
  cases r with
  | fault f => exact ⟨fun h => absurd h f.code_ne_zero, fun h => absurd rfl (h f)⟩
  | done | res32 | res64 | str | bytes => exact ⟨fun _ _ h => Response.noConfusion h, fun _ => rfl⟩

/-- Settles O22: the codes are the five of the table, and a response's status is its fault's code or 0x00. -/
theorem statusCodesAreThoseOfTheFiveFaults : Obligations.StatusCodesAreThoseOfTheFiveFaults :=
  ⟨rfl, rfl, rfl, rfl, rfl, fun r => ⟨r.status_toNat_le, r.status_eq_zero_iff⟩⟩

end Sys2Proof.Machine
end

section
/-! SUPPORT. Which fault a command raises (R221 to R227, R239): for each operation the commands share, its command
faults exactly under its rule's condition and else answers in its format. -/

namespace Sys2Proof.Machine

/-- The command on the state faults where its rule says so, and else succeeds in its format. -/
def FaultsByRule (i : Instr) (s : State) : Prop :=
  (∀ f, faultCondition i s.len f → exec i s = .next (raise f s)) ∧
    ((∀ f, ¬ faultCondition i s.len f) →
      ∃ (r : Response) (m : Memory), answersInFormat i r ∧ exec i s = .next (answered m r s))

section
variable {i : Instr} {s : State}

/-- A command with one fault `g`, under one condition `P`. -/
theorem FaultsByRule.of_one_fault {g : FaultCode} {P : Prop}
    (hrule : ∀ f, faultCondition i s.len f ↔ f = g ∧ P) (hfault : P → exec i s = .next (raise g s))
    (hok : ¬ P → ∃ r m, answersInFormat i r ∧ exec i s = .next (answered m r s)) : FaultsByRule i s := by
  refine ⟨fun f hf => ?_, fun hnone => hok fun hP => hnone g ((hrule g).2 ⟨rfl, hP⟩)⟩
  obtain ⟨rfl, hP⟩ := (hrule f).1 hf
  exact hfault hP

/-- A command without a fault (R239). -/
theorem FaultsByRule.of_no_fault {r : Response} (hrule : ∀ f, ¬ faultCondition i s.len f)
    (hr : answersInFormat i r) (hexec : exec i s = .next (respond r s)) : FaultsByRule i s :=
  ⟨fun f hf => absurd hf (hrule f), fun _ => ⟨r, s.mem, hr, hexec⟩⟩

theorem inBounds_of_not_spanFits {off : Word32} {w len : Nat} (h : ¬ spanFits off w len) :
    inBounds off w len = false :=
  Bool.eq_false_iff.2 fun hb => h ((inBounds_iff off w len).1 hb)

/-- A load raises Bounds exactly where its span does not fit (R222). -/
theorem FaultsByRule.of_load {W w : Nat} {mk : BitVec W → Response} {d : Desc} {off : Word32}
    (hrule : ∀ f, faultCondition i s.len f ↔ f = .bounds ∧ ¬ spanFits off w s.len)
    (hformat : ∀ v, answersInFormat i (mk v)) (hexec : exec i s = .next (load W w mk d off s)) : FaultsByRule i s := by
  refine .of_one_fault hrule (fun hout => ?_) fun hin => ?_
  · rw [hexec, load_bounds (inBounds_of_not_spanFits hout)]
  · rw [hexec, load_ok ((inBounds_iff _ _ _).2 (not_not.1 hin))]
    exact ⟨_, s.mem, hformat _, rfl⟩

/-- A store raises Bounds exactly where its span does not fit (R222). -/
theorem FaultsByRule.of_store {W w : Nat} {d : Desc} {off : Word32} {v : BitVec W}
    (hrule : ∀ f, faultCondition i s.len f ↔ f = .bounds ∧ ¬ spanFits off w s.len)
    (hformat : answersInFormat i .done) (hexec : exec i s = .next (store w d off v s)) : FaultsByRule i s := by
  refine .of_one_fault hrule (fun hout => ?_) fun hin => ?_
  · rw [hexec, store_bounds (inBounds_of_not_spanFits hout)]
  · rw [hexec, store_ok ((inBounds_iff _ _ _).2 (not_not.1 hin))]
    exact ⟨.done, _, hformat, rfl⟩

/-- A counted command raises Range exactly on a count above 64 (R224). -/
theorem FaultsByRule.of_withCount {n : Byte} {r : Nat → Response}
    (hrule : ∀ f, faultCondition i s.len f ↔ f = .range ∧ n.toNat > 64)
    (hformat : answersInFormat i (r n.toNat)) (hexec : exec i s = .next (withCount n r s)) : FaultsByRule i s := by
  refine .of_one_fault hrule (fun hbig => ?_) fun hsmall => ?_
  · rw [hexec, withCount_range hbig]
  · rw [hexec, withCount_ok (Nat.not_lt.1 hsmall)]
    exact ⟨_, s.mem, hformat, rfl⟩

end

theorem faultsByRule_fromBitStr (d : Desc) (cs : List Byte) (s : State) : FaultsByRule (.fromBitStr d cs) s :=
  .of_one_fault (fun _ => Iff.rfl) (exec_fromBitStr_badChar d s) fun hgood =>
    ⟨_, s.mem, ⟨_, rfl, length_stringBytes _ cs⟩, exec_fromBitStr d s (by simpa using hgood)⟩

/-- BITSTR2LONG has two faults, the length before the characters (R227). -/
theorem faultsByRule_bitStr2Long (d : Desc) (cs : List Byte) (s : State) : FaultsByRule (.bitStr2Long d cs) s := by
  refine ⟨fun f hf => ?_, fun hnone => ?_⟩
  · rcases hf with ⟨rfl, hlong⟩ | ⟨rfl, hshort, hbad⟩
    · exact exec_bitStr2Long_tooLong d s hlong
    · exact exec_bitStr2Long_badChar d s hshort hbad
  · have hshort : cs.length ≤ 64 := Nat.not_lt.1 fun hlong => hnone .invalidInput (.inl ⟨rfl, hlong⟩)
    have hgood : ¬ ∃ c ∈ cs, ¬ isCharCode c := fun hbad => hnone .badChar (.inr ⟨rfl, hshort, hbad⟩)
    exact ⟨_, s.mem, ⟨_, rfl⟩, exec_bitStr2Long d s hshort (by simpa using hgood)⟩

theorem isCharCode_of_mem_lastBitString {v : Word64} {n : Nat} : ∀ x ∈ lastBitString v n, isCharCode x := by
  rw [← all_isBitChar_iff]
  simp [lastBitString]

/-- Each command by the operation that carries it out. -/
theorem exec_faultsByRule (i : Instr) (s : State) : FaultsByRule i s := by
  cases i with
  | get | toLongP => exact .of_no_fault (fun _ => id) ⟨_, rfl⟩ rfl
  | toInt | toLong | toFloat | toDouble => exact .of_load (fun _ => Iff.rfl) (fun v => ⟨v, rfl⟩) rfl
  | fromInt | fromLong | fromFloat | fromDouble => exact .of_store (fun _ => Iff.rfl) rfl rfl
  | reverse | reverseLeft => exact .of_withCount (fun _ => Iff.rfl) ⟨_, rfl⟩ rfl
  | toBitStr d n v =>
    exact .of_withCount (fun _ => Iff.rfl) ⟨_, rfl, length_topBitString v _, isCharCode_of_mem_topBitString⟩ rfl
  | toLastBitStr d n v =>
    exact .of_withCount (fun _ => Iff.rfl) ⟨_, rfl, length_lastBitString v _, isCharCode_of_mem_lastBitString⟩ rfl
  | fromBitStr d cs => exact faultsByRule_fromBitStr d cs s
  | bitStr2Long d cs => exact faultsByRule_bitStr2Long d cs s

/-- Settles O15: `exec_faultsByRule`, the answers written out. -/
theorem commandFaultsExactlyWhenItsRuleSays : Obligations.CommandFaultsExactlyWhenItsRuleSays :=
  exec_faultsByRule

end Sys2Proof.Machine
end

section
/-! SUPPORT. The reset (R260), and a host that only issues commands: one response each, whatever the commands are
(R25, R26, R229, R266). -/

namespace Sys2Proof.Machine

/-- Settles O8: the step is the pending command, and `runCommand_answered` says what that leaves: one more response, the
rest kept. -/
theorem everyCommandIsAnsweredOnce : Obligations.EveryCommandIsAnsweredOnce := by
  intro s c es h
  obtain ⟨m, r, hrun⟩ := runCommand_answered c { s with pending := es }
  exact ⟨answered m r { s with pending := es }, r, (step_command h).trans hrun, rfl, rfl, rfl⟩

/-- Settles O9, by induction on the commands: the first is answered by one step (O8), after which the rest are pending,
so its response stands before theirs. -/
theorem runAnswersEveryCommand : Obligations.RunAnswersEveryCommand := by
  intro cs
  induction cs with
  | nil => exact fun s h => ⟨s, [], rfl, h, rfl, rfl, (List.append_nil _).symm⟩
  | cons c cs ih =>
    intro s h
    obtain ⟨t, r, hstep, hresp, hpending, hlen⟩ := everyCommandIsAnsweredOnce s c (cs.map .command) h
    obtain ⟨u, rs, hrun, hidle, hlen', hcount, hresp'⟩ := ih t hpending
    refine ⟨u, r :: rs, (core_run_succ hstep cs.length).trans hrun, hidle, hlen'.trans hlen,
      congrArg Nat.succ hcount, ?_⟩
    rw [hresp', hresp, List.append_assoc, List.singleton_append]

/-- Settles O12: the empty memory is canonical and lists no offset, and `LEN` is 0. -/
theorem resetStateIsCanonicalAndIdle : Obligations.ResetStateIsCanonicalAndIdle :=
  ⟨(State.inv_iff State.reset).2 ⟨rfl, rfl, Nat.zero_le _⟩, rfl, rfl⟩

/-- Settles O19: `step_reset`, the step's law at a pending reset. -/
theorem resetEventChangesNothing : Obligations.ResetEventChangesNothing :=
  fun _ _ => step_reset

end Sys2Proof.Machine
end
